-- ==== Sys2Proof/Word.lean ====
section
/-! DEFINITION. The widths of the HPE's data: the 32-bit word, the byte, the symbol and the node handle
(00_scope.md R10, R11). Every value is unsigned (R11). -/

namespace Sys2Proof

/-- A register value or a weight: an unsigned 32-bit word (R10, R11). -/
abbrev Word := BitVec 32

/-- One byte of the packed buffer (10_state.md R47). -/
abbrev Byte := BitVec 8

/-- A symbol, 0 to 255 (R10). -/
abbrev Symbol := BitVec 8

/-- A node handle: 9 bits, the smallest width that holds 0 to 510 (R10). -/
abbrev Handle := BitVec 9

/-- The largest value of a 32-bit register or weight, 2^32 - 1 (R12, R116, R118). -/
abbrev maxWord : Nat := 4294967295

end Sys2Proof
end

