-- ==== Sys2Proof/Syntax.lean ====
section
/-! DEFINITION. The 12 commands of the HPE, one constructor for each row of spec/opcode_table.json
(30_encoding.md R86). -/

namespace Sys2Proof

/-- A command with its operand field (R85). A symbol is 8 bits and every value of it is legal. A handle and a
width are numbers the command compares with counts, so they are naturals, bounded by `Instr.wellFormed`. -/
inductive Instr where
  /-- NOP, no operation (40_control.md R100). -/
  | nop
  /-- CLRERR, clear the error record (40_control.md R101). -/
  | clrerr
  /-- TB_CLEAR, empty the tree builder (41_tree_builder.md R113). -/
  | tbClear
  /-- TB_LEAF sym, load a leaf of weight DATA (41_tree_builder.md R114). -/
  | tbLeaf (sym : Symbol)
  /-- TB_MERGE, one merge step (41_tree_builder.md R116). -/
  | tbMerge
  /-- TB_BUILD, merge until one root remains (41_tree_builder.md R118). -/
  | tbBuild
  /-- TB_READ h, read node h back (41_tree_builder.md R120). -/
  | tbRead (h : Nat)
  /-- BP_CLEAR, empty the packed buffer (42_bit_packer.md R140). -/
  | bpClear
  /-- BP_PUT w, append the low w bits of DATA (42_bit_packer.md R141). -/
  | bpPut (w : Nat)
  /-- BP_GET w, read the next w bits (42_bit_packer.md R142). -/
  | bpGet (w : Nat)
  /-- BP_REWIND, restart unpacking (42_bit_packer.md R143). -/
  | bpRewind
  /-- BP_SETLEN, set the bit count to DATA (42_bit_packer.md R144). -/
  | bpSetlen
deriving DecidableEq, Repr

end Sys2Proof
end

