-- ==== Sys2Proof/WellFormed.lean ====
section
/-! DEFINITION. Which commands have an encoding: an operand must fit its field (30_encoding.md R93). -/

namespace Sys2Proof

/-- The operand fits its field. R93: "The assembler refuses a field value that does not fit its field:
s > 255, h > 511 or w > 63." A symbol fits by its type. Widths 0 and 33 to 63 are encodable: the device
rejects them, the assembler does not. -/
def Instr.wellFormed : Instr → Bool
  | .nop => true
  | .clrerr => true
  | .tbClear => true
  | .tbLeaf _ => true
  | .tbMerge => true
  | .tbBuild => true
  | .tbRead h => decide (h ≤ 511)
  | .bpClear => true
  | .bpPut w => decide (w ≤ 63)
  | .bpGet w => decide (w ≤ 63)
  | .bpRewind => true
  | .bpSetlen => true

end Sys2Proof
end

