-- ==== Sys2Proof/Decode.lean ====
section
/-! DEFINITION. The command word (30_encoding.md): formats, the opcode map, the decoder and the encoder. -/

namespace Sys2Proof

/-- The four formats of a command word (R81 to R84). -/
inductive Format where
  | z
  | w
  | s
  | h
deriving DecidableEq, Repr

/-- Why a word is no command (R80, R87). Either way the device raises IllegalCommand. -/
inductive Reject where
  /-- bits 31:24 are no opcode of R86 -/
  | reservedOp
  /-- a listed opcode with a nonzero reserved bit -/
  | reservedBits
deriving DecidableEq, Repr

/-- A row of the opcode map: the opcode, its format, and the command its operand field makes. -/
structure OpRow where
  op : BitVec 8
  format : Format
  build : Word → Instr

/-- The opcode OP, bits 31:24 of every command word (R81 to R84). -/
def opField (c : Word) : BitVec 8 := c.extractLsb' 24 8

/-- `SYM = c[23:16]` (R85). -/
def symField (c : Word) : Symbol := c.extractLsb' 16 8

/-- `H = c[8:0]`, zero-extended (R85). -/
def handleField (c : Word) : Nat := (c.extractLsb' 0 9).toNat

/-- `W = c[5:0]`, zero-extended (R85). -/
def widthField (c : Word) : Nat := (c.extractLsb' 0 6).toNat

/-- The reserved bits of a format, which must be 0: Z 23:0, W 23:6, S 15:0, H 23:9 (R81 to R84). -/
def reservedMask : Format → Word
  | .z => 0x00FFFFFF#32
  | .w => 0x00FFFFC0#32
  | .s => 0x0000FFFF#32
  | .h => 0x00FFFE00#32

/-- The opcode of each command (R86). -/
def opcode : Instr → BitVec 8
  | .nop => 0x00#8
  | .clrerr => 0x01#8
  | .tbClear => 0x10#8
  | .tbLeaf _ => 0x11#8
  | .tbMerge => 0x12#8
  | .tbBuild => 0x13#8
  | .tbRead _ => 0x14#8
  | .bpClear => 0x20#8
  | .bpPut _ => 0x21#8
  | .bpGet _ => 0x22#8
  | .bpRewind => 0x23#8
  | .bpSetlen => 0x24#8

/-- The opcode map (R86). -/
def opcodeMap : List OpRow :=
  [{ op := 0x00#8, format := .z, build := fun _ => .nop },
   { op := 0x01#8, format := .z, build := fun _ => .clrerr },
   { op := 0x10#8, format := .z, build := fun _ => .tbClear },
   { op := 0x11#8, format := .s, build := fun c => .tbLeaf (symField c) },
   { op := 0x12#8, format := .z, build := fun _ => .tbMerge },
   { op := 0x13#8, format := .z, build := fun _ => .tbBuild },
   { op := 0x14#8, format := .h, build := fun c => .tbRead (handleField c) },
   { op := 0x20#8, format := .z, build := fun _ => .bpClear },
   { op := 0x21#8, format := .w, build := fun c => .bpPut (widthField c) },
   { op := 0x22#8, format := .w, build := fun c => .bpGet (widthField c) },
   { op := 0x23#8, format := .z, build := fun _ => .bpRewind },
   { op := 0x24#8, format := .z, build := fun _ => .bpSetlen }]

/-- Decoding (R80): the opcode must be in the map, then the format's reserved bits must all be 0.
Total: every word selects one command or is rejected by name. -/
def decode (c : Word) : Except Reject Instr :=
  match opcodeMap.find? (fun r => r.op == opField c) with
  | none => .error .reservedOp
  | some r => if c &&& reservedMask r.format = 0#32 then .ok (r.build c) else .error .reservedBits

/-- A word of format Z: the opcode in 31:24, the rest 0 (R81). -/
def encodeZ (op : BitVec 8) : Word := op.setWidth 32 <<< 24

/-- A word of format S: the symbol in 23:16 (R83). -/
def encodeS (op : BitVec 8) (sym : Symbol) : Word := (op.setWidth 32 <<< 24) ||| (sym.setWidth 32 <<< 16)

/-- A word of format H or W: the number in the low bits (R82, R84). -/
def encodeLow (op : BitVec 8) (n : Nat) : Word := (op.setWidth 32 <<< 24) ||| BitVec.ofNat 32 n

/-- The word of a well-formed command (R81 to R86, R93). -/
def encode : Instr → Word
  | .nop => encodeZ 0x00#8
  | .clrerr => encodeZ 0x01#8
  | .tbClear => encodeZ 0x10#8
  | .tbLeaf sym => encodeS 0x11#8 sym
  | .tbMerge => encodeZ 0x12#8
  | .tbBuild => encodeZ 0x13#8
  | .tbRead h => encodeLow 0x14#8 h
  | .bpClear => encodeZ 0x20#8
  | .bpPut w => encodeLow 0x21#8 w
  | .bpGet w => encodeLow 0x22#8 w
  | .bpRewind => encodeZ 0x23#8
  | .bpSetlen => encodeZ 0x24#8

/-- The bus word the opcode table's numbering gives: bit i of the table is bit i of the word (20_memory.md R68),
and the bits above `nbits` are 0. A command is one word (R89). -/
def tableWord (nbits w : Nat) : Word := BitVec.ofNat 32 (w % 2 ^ nbits)

/-- What the decoder reads from a row's word. -/
def decodeTableWord (nbits w : Nat) : Option Instr := (decode (tableWord nbits w)).toOption

end Sys2Proof
end

