-- ==== Sys2Proof/Config.lean ====
section
/-! DEFINITION. The parameters of the model (00_scope.md R9) and its fixed sizes (R10), with the two data
types the tie-break parameter is a function of (10_state.md R43, R44). -/

namespace Sys2Proof

/-- An entry (weight, handle) of the priority container (10_state.md R43). -/
structure Entry where
  weight : Word
  handle : Handle
deriving DecidableEq, Repr

/-- One container operation of the history PQHIST (10_state.md R44): `Ins(w, h)` or `Ext(w, h)`. -/
inductive PQOp where
  | ins (e : Entry)
  | ext (e : Entry)
deriving DecidableEq, Repr

/-- The parameters of R9 that are plain data. They are arguments of the model, not device state (R20):
the state carries them beside the device's own fields and no step writes them. DESIGN CHOICE, log 1. -/
structure Params where
  /-- PBUF_BYTES, the capacity of the packed buffer in bytes. -/
  pbufBytes : Nat
  /-- BASE, the host bus address of device offset 0. -/
  base : Nat
deriving DecidableEq, Repr

/-- The legal values R9 gives: 1 ≤ PBUF_BYTES ≤ 536 870 911, any BASE. -/
abbrev Params.Legal (p : Params) : Prop := 1 ≤ p.pbufBytes ∧ p.pbufBytes ≤ 536870911

/-- The capacity of the packed buffer in bits, 8·PBUF_BYTES. -/
def Params.capacityBits (p : Params) : Nat := 8 * p.pbufBytes

/-- The host bus address of a device offset (20_memory.md R60). The device itself sees offsets only (R75). -/
def Params.busAddress (p : Params) (offset : Nat) : Nat := p.base + offset

/-- The values 95_test_vectors.md uses: PBUF_BYTES = 64, BASE = 0x4000_0000. DESIGN CHOICE, log 1. -/
def Config.vectorParams : Params := { pbufBytes := 64, base := 0x40000000 }

/-- The implementation's choice among two or more equal-weight entries at an extraction: the parameter
`tieSelect` of R9, a function of the container's history and the candidates (41_tree_builder.md R112).
Uninterpreted: nothing is known of it, so a claim holds for every tie-break policy. Log 2. -/
opaque Config.tieChoice : List PQOp → List Entry → Nat

/-- MAX_FIELD, the widest field one BP_PUT or BP_GET moves (R10). -/
def Config.maxField : Nat := 32

/-- NODE_CAP, the number of node slots (R10). -/
def Config.nodeCap : Nat := 511

/-- MAX_LEAVES, one leaf for each symbol (R10). -/
def Config.maxLeaves : Nat := 256

end Sys2Proof
end

