-- ==== Sys2Proof/Machine/State.lean ====
section
/-! DEFINITION. The state of the machine: the device's architectural state (10_state.md R20) as plain data, the
parameters (00_scope.md R9), and the host's side of a run (70_reset_and_hazards.md R209). -/

namespace Sys2Proof.Machine

/-- A node slot in use (10_state.md R40). -/
inductive Node where
  /-- `Leaf(sym, w)` -/
  | leaf (sym : Symbol) (weight : Word)
  /-- `Internal(w, l, r)` -/
  | internal (weight : Word) (left right : Handle)
deriving DecidableEq, Repr

/-- The tree builder unit (10_state.md R40 to R45, R35, R36). -/
structure TreeUnit where
  /-- NODE: the slots in use, slot h at position h. NCOUNT is the list's length. Log 6. -/
  nodes : List Node
  /-- PQ, in insertion order (R43). -/
  pq : List Entry
  /-- PQHIST, oldest first (R44). -/
  hist : List PQOp
  /-- LOADED, the set of loaded symbols as a strictly rising list (R42). Log 7. -/
  loaded : List Symbol
  /-- MERGED (R45). -/
  merged : Bool
  /-- ROOTV (R45). -/
  rootv : Bool
  /-- ROOT (R45). -/
  root : Handle
  /-- NODE_W (R35). -/
  nodeW : Word
  /-- NODE_LINK (R36). -/
  nodeLink : Word
deriving DecidableEq, Repr

/-- Byte storage: (index, byte) cells with strictly rising indices and no cell equal to what an unlisted index
reads as (`Memory.wf` in Ops.lean). Log 8. -/
abbrev Memory := List Host.Cell

/-- The bit packer unit (10_state.md R47, R48, R28). -/
structure BitPacker where
  /-- PBUF, by byte index (R47). -/
  pbuf : Memory
  /-- BITCNT (R29). -/
  bitcnt : Nat
  /-- RDPOS (R30). -/
  rdpos : Nat
  /-- RESULT (R28). -/
  result : Word
deriving DecidableEq, Repr

/-- One event at the device's port: a host access (20_memory.md R64, R65) or the platform's reset
(70_reset_and_hazards.md R190). Offsets are device offsets, the only address the HPE sees (R75). -/
inductive HostEvent where
  /-- `MemRead(a, n)` -/
  | read (offset n : Nat)
  /-- `MemWrite(a, n, v)`. A 1-byte write carries its byte in bits 7:0. Log 11. -/
  | write (offset n : Nat) (v : Word)
  /-- The reset event. Log 14. -/
  | reset
deriving DecidableEq, Repr

/-- What a host read returned: a register's word or a PBUF byte (R64). -/
inductive ReadValue where
  | word (v : Word)
  | byte (b : Byte)
deriving DecidableEq, Repr

/-- The registers of the register page (10_state.md R21); `reserved` stands for 0x03C to 0xFFC (R37). -/
inductive Reg where
  | id
  | pbufSize
  | status
  | errcode
  | cmd
  | data
  | result
  | bitcnt
  | rdpos
  | acc
  | tbCount
  | tbNodes
  | tbRoot
  | nodeW
  | nodeLink
  | reserved
deriving DecidableEq, Repr

/-- The error names of 60_exceptions.md R170. -/
inductive ErrKind where
  | emptyAlphabet
  | bitRequestOutOfRange
  | structuralCorruption
  | truncatedStream
  | illegalCommand
  | badOperand
  | capacityExceeded
  | duplicateSymbol
  | sequenceError
  | weightOverflow
deriving DecidableEq, Repr

/-- The whole machine. The device's state (R20) is `data`, `errcode`, `tb` and `bp`. The others are the model's
own: the parameters (log 1) and the host's side of the run (log 3). -/
structure State where
  /-- PBUF_BYTES and BASE (R9). No step writes them. -/
  params : Params
  /-- The accesses the host has still to make, next first (R209). -/
  host : List HostEvent
  /-- The values the host's reads returned, oldest first (R209). -/
  reads : List ReadValue
  /-- DATA (R27). -/
  data : Word
  /-- ERRCODE (R25). -/
  errcode : Word
  /-- The tree builder unit. -/
  tb : TreeUnit
  /-- The bit packer unit. -/
  bp : BitPacker
deriving DecidableEq, Repr

/-- What stops a run for want of a next step. -/
inductive Fault where
  /-- Raised by `step` when the host has no access left: the run is over (R209). It is no error of the device.
  Safe: nothing is claimed of a step that does not exist. Log 4. -/
  | endOfRun
deriving DecidableEq, Repr

/-- What the model gives no meaning. -/
inductive Refusal where
  /-- An instruction whose meaning is not written (none is left). Safe. -/
  | notModelled (mnemonic : String)
  /-- Raised by a host access inside the register page or the PBUF window of a width or alignment that
  20_memory.md R66 refuses. Safe: the spec gives such an access no meaning. Log 5. -/
  | accessForm
  /-- Raised by a host access at an offset outside both regions, which R67 refuses. Safe, as above. Log 5. -/
  | unmapped
deriving DecidableEq, Repr

/-- The outcome of a step or of a command. -/
abbrev Result := Host.Outcome State Fault Refusal

/-- The empty tree builder, after reset (R190) and after TB_CLEAR (41_tree_builder.md R113). -/
def TreeUnit.empty : TreeUnit :=
  { nodes := [], pq := [], hist := [], loaded := [], merged := false, rootv := false, root := 0#9,
    nodeW := 0#32, nodeLink := 0#32 }

/-- The empty bit packer, after reset (R190) and after BP_CLEAR (42_bit_packer.md R140): every byte 0x00. -/
def BitPacker.empty : BitPacker := { pbuf := [], bitcnt := 0, rdpos := 0, result := 0#32 }

/-- The state after reset of an instance with parameters `p` (R190), before the host has done anything. -/
def State.resetWith (p : Params) : State :=
  { params := p, host := [], reads := [], data := 0#32, errcode := 0#32, tb := TreeUnit.empty, bp := BitPacker.empty }

/-- The state after reset, of the instance 95_test_vectors.md uses. The parameter values are a DESIGN CHOICE, log 1;
every device field is as R190 says. -/
def State.reset : State := State.resetWith Config.vectorParams

/-! Named updates: the only ways a step changes a field of the whole state. -/

def State.withHost (s : State) (l : List HostEvent) : State := { s with host := l }
def State.logRead (s : State) (v : ReadValue) : State := { s with reads := s.reads ++ [v] }
def State.withData (s : State) (v : Word) : State := { s with data := v }
def State.withErrcode (s : State) (v : Word) : State := { s with errcode := v }
def State.withTb (s : State) (t : TreeUnit) : State := { s with tb := t }
def State.withBp (s : State) (b : BitPacker) : State := { s with bp := b }

end Sys2Proof.Machine
end

