-- ==== Sys2Proof/Machine/Operands.lean ====
section
/-! DEFINITION. The operand forms of the commands: the 32-bit operand in DATA, the field of a BP_PUT or BP_GET
as a bit string, and the number a bit string stands for (30_encoding.md R85, 42_bit_packer.md R141, R142). -/

namespace Sys2Proof.Machine

/-- The 32-bit operand of TB_LEAF, BP_PUT and BP_SETLEN: DATA when the command executes (R85). -/
def dataOperand (s : State) : Word := s.data

/-- A legal field width: "Only 1–32 are legal" (R85). -/
def legalWidth (w : Nat) : Bool := decide (1 ≤ w) && decide (w ≤ Config.maxField)

/-- The field `f = v[w-1:0]`, its most significant bit first: bit i of the list is `f[w-1-i]` (R141). Bits of
DATA at and above w are ignored. -/
def fieldBits (v : Word) (w : Nat) : List Bool := (List.range w).map (fun i => v.getLsbD (w - 1 - i))

/-- The number a bit string stands for, first bit most significant: `r <- 2*r + bit` (R142). -/
def bitsValue (bits : List Bool) : Nat := bits.foldl (fun r b => 2 * r + b.toNat) 0

/-- NODE_LINK of a node (10_state.md R36, 41_tree_builder.md R120): a leaf is `(1 << 31) | (s << 18)`, an internal
node is `(r << 9) | l`. -/
def linkWord : Node → Word
  | .leaf sym _ => 0x80000000#32 ||| (sym.setWidth 32 <<< 18)
  | .internal _ l r => (r.setWidth 32 <<< 9) ||| l.setWidth 32

/-- The weight of a node (R40). -/
def nodeWeight : Node → Word
  | .leaf _ w => w
  | .internal w _ _ => w

end Sys2Proof.Machine
end

