-- ==== Sys2Proof/Machine/Ops.lean ====
section
/-! DEFINITION. The shared operations: byte storage and the packed bit stream, the ordered container and node
memory, and recording an error (the HPE's trap entry) with its return. -/

namespace Sys2Proof.Machine

/-! ## Byte storage -/

/-- The canonical form: strictly rising indices, no cell holding what an unlisted index reads as (0x00). -/
abbrev Memory.wf (m : Memory) : Prop :=
  m.Pairwise (fun c d => c.1 < d.1) ∧ ∀ c ∈ m, c.2 ≠ 0#8

/-- One byte. An unlisted index reads 0x00, the reset contents of PBUF (10_state.md R47). -/
def Memory.read : Memory → Nat → Byte
  | [], _ => 0#8
  | (a, b) :: m, i => if i = a then b else Memory.read m i

/-- Put a cell in front, unless it holds 0x00. -/
def consByte (i : Nat) (v : Byte) (m : Memory) : Memory := if v = 0#8 then m else (i, v) :: m

/-- Set one byte. It keeps the canonical form. -/
def Memory.write : Memory → Nat → Byte → Memory
  | [], i, v => consByte i v []
  | (a, b) :: m, i, v =>
    if i < a then consByte i v ((a, b) :: m)
    else if i = a then consByte i v m
    else (a, b) :: Memory.write m i v

/-! ## The packed bit stream (20_memory.md R62) -/

/-- The bit of a byte that stream position p occupies: 7 - (p mod 8). -/
def bitIndex (p : Nat) : Nat := 7 - p % 8

/-- `PB(p) = PBUF[p >> 3][7 - (p & 7)]`. -/
def streamBit (m : Memory) (p : Nat) : Bool := (Memory.read m (p / 8)).getLsbD (bitIndex p)

/-- A byte with one bit set to `b`, the others unchanged. -/
def setByteBit (x : Byte) (k : Nat) (b : Bool) : Byte :=
  if b then x ||| (1#8 <<< k) else x &&& ~~~(1#8 <<< k)

/-- `SetPB(p, b)`. -/
def setStreamBit (m : Memory) (p : Nat) (b : Bool) : Memory :=
  Memory.write m (p / 8) (setByteBit (Memory.read m (p / 8)) (bitIndex p) b)

/-- `SetPB` of consecutive positions from p, in order. -/
def writeBits (m : Memory) (p : Nat) : List Bool → Memory
  | [] => m
  | b :: bits => writeBits (setStreamBit m p b) (p + 1) bits

/-- `PB(p)` to `PB(p + w - 1)`, in order. -/
def readBits (m : Memory) (p w : Nat) : List Bool := (List.range w).map (fun i => streamBit m (p + i))

/-- Zero the rest of the final byte of a stream of e bits: positions e to e | 7 when e is not a multiple of 8
(42_bit_packer.md R141). -/
def padFinalByte (m : Memory) (e : Nat) : Memory :=
  if e % 8 = 0 then m else writeBits m e (List.replicate (8 - e % 8) false)

/-- Append a bit string to the stream: its bits, then the padding of the new final byte, then the count (R141). -/
def BitPacker.append (b : BitPacker) (bits : List Bool) : BitPacker :=
  { b with
    pbuf := padFinalByte (writeBits b.pbuf b.bitcnt bits) (b.bitcnt + bits.length),
    bitcnt := b.bitcnt + bits.length }

/-- Read the next w bits into RESULT and move RDPOS past them (42_bit_packer.md R142). -/
def BitPacker.take (b : BitPacker) (w : Nat) : BitPacker :=
  { b with result := BitVec.ofNat 32 (bitsValue (readBits b.pbuf b.rdpos w)), rdpos := b.rdpos + w }

/-- `RDPOS <- 0` (42_bit_packer.md R143). -/
def BitPacker.rewind (b : BitPacker) : BitPacker := { b with rdpos := 0 }

/-- Set the count to n, rewind, and zero every bit from n up to the capacity (42_bit_packer.md R144). -/
def BitPacker.setLength (b : BitPacker) (n capacity : Nat) : BitPacker :=
  { b with bitcnt := n, rdpos := 0, pbuf := writeBits b.pbuf n (List.replicate (capacity - n) false) }

/-- Set byte i of PBUF: a host write through the window (20_memory.md R61). -/
def BitPacker.setByte (b : BitPacker) (i : Nat) (v : Byte) : BitPacker :=
  { b with pbuf := Memory.write b.pbuf i v }

/-! ## The ordered container (41_tree_builder.md R110 to R112) -/

/-- `min { w | (w, h) in PQ }`; 0 for an empty container, which no caller asks about. -/
def minWeight (pq : List Entry) : Nat := ((pq.map (fun e => e.weight.toNat)).min?).getD 0

/-- The candidates: the entries of minimum weight, in PQ order (R112). -/
def candidates (pq : List Entry) : List Entry := pq.filter (fun e => e.weight.toNat == minWeight pq)

/-- `tieSelect` (R9, R112): an index below the number of candidates. A single candidate is index 0; among several
the choice is the implementation's. Log 2. -/
def tieSelect (hist : List PQOp) (cands : List Entry) : Nat :=
  match cands with
  | [_] => 0
  | _ => Config.tieChoice hist cands % cands.length

/-- `PQInsert(w, h)` (R111). -/
def TreeUnit.insert (t : TreeUnit) (e : Entry) : TreeUnit :=
  { t with pq := t.pq ++ [e], hist := t.hist ++ [.ins e] }

/-- `PQExtractMin()` (R112): the entry and the unit without it; none for an empty container. -/
def TreeUnit.extractMin (t : TreeUnit) : Option (Entry × TreeUnit) :=
  match (candidates t.pq)[tieSelect t.hist (candidates t.pq)]? with
  | none => none
  | some e => some (e, { t with pq := t.pq.erase e, hist := t.hist ++ [.ext e] })

/-- NCOUNT (10_state.md R20). -/
def TreeUnit.ncount (t : TreeUnit) : Nat := t.nodes.length

/-- The next free handle, `h <- NCOUNT`. -/
def TreeUnit.nextHandle (t : TreeUnit) : Handle := BitVec.ofNat 9 t.ncount

/-- `NODE[NCOUNT] <- n; NCOUNT <- NCOUNT + 1`. -/
def TreeUnit.pushNode (t : TreeUnit) (n : Node) : TreeUnit := { t with nodes := t.nodes ++ [n] }

/-- `ROOT <- PQ[0].h; ROOTV <- 1` (R116, R118); nothing on an empty container, which no caller has. -/
def TreeUnit.markRoot (t : TreeUnit) : TreeUnit :=
  match t.pq with
  | [] => t
  | e :: _ => { t with root := e.handle, rootv := true }

/-- `LOADED ∪ {s}`, keeping the list strictly rising (R42). -/
def insertSymbol (s : Symbol) : List Symbol → List Symbol
  | [] => [s]
  | x :: l => if s < x then s :: x :: l else if s = x then x :: l else x :: insertSymbol s l

/-- Load a leaf: the state changes of a successful TB_LEAF (R114). -/
def TreeUnit.addLeaf (t : TreeUnit) (sym : Symbol) (w : Word) : TreeUnit :=
  let u := (t.pushNode (.leaf sym w)).insert { weight := w, handle := t.nextHandle }
  { u with loaded := insertSymbol sym t.loaded, rootv := false, root := 0#9 }

/-- MergeStep (R115). Its callers guarantee two entries and a sum that fits; with fewer entries, which no caller
has, the unit stays as it is. Log 10. -/
def TreeUnit.mergeStep (t : TreeUnit) : TreeUnit :=
  match t.extractMin with
  | none => t
  | some (a, t1) =>
    match t1.extractMin with
    | none => t
    | some (b, t2) =>
      let w := BitVec.ofNat 32 (a.weight.toNat + b.weight.toNat)
      let u := (t2.pushNode (.internal w a.handle b.handle)).insert { weight := w, handle := t2.nextHandle }
      { u with merged := true }

/-- `while |PQ| ≥ 2: MergeStep()` (R118), with the loop's bound as fuel: each pass takes one entry away. -/
def TreeUnit.mergeLoop : Nat → TreeUnit → TreeUnit
  | 0, t => t
  | fuel + 1, t => if 2 ≤ t.pq.length then TreeUnit.mergeLoop fuel t.mergeStep else t

/-- The merges of a TB_BUILD and its root (R118). -/
def TreeUnit.build (t : TreeUnit) : TreeUnit := (TreeUnit.mergeLoop t.pq.length t).markRoot

/-- `Σ { w | (w, h) in PQ }` (R118). -/
def totalWeight (pq : List Entry) : Nat := (pq.map (fun e => e.weight.toNat)).sum

/-- m1 + m2 of R116: the lowest weight, and the lowest after one entry of that weight is removed. -/
def twoLowestSum (pq : List Entry) : Nat :=
  minWeight pq + minWeight (pq.eraseP (fun e => e.weight.toNat == minWeight pq))

/-- Put a node into NODE_W and NODE_LINK (R120). -/
def TreeUnit.showNode (t : TreeUnit) (n : Node) : TreeUnit :=
  { t with nodeW := nodeWeight n, nodeLink := linkWord n }

/-! ## Errors: the HPE's trap entry and its return (60_exceptions.md R170, R172, R178) -/

/-- The error codes (R170). -/
def errCode : ErrKind → BitVec 8
  | .emptyAlphabet => 0x01#8
  | .bitRequestOutOfRange => 0x02#8
  | .structuralCorruption => 0x03#8
  | .truncatedStream => 0x04#8
  | .illegalCommand => 0x10#8
  | .badOperand => 0x11#8
  | .capacityExceeded => 0x12#8
  | .duplicateSymbol => 0x13#8
  | .sequenceError => 0x14#8
  | .weightOverflow => 0x15#8

/-- ERRCODE.CODE, bits 7:0 (10_state.md R25). -/
def errcodeCode (ec : Word) : BitVec 8 := ec.extractLsb' 0 8

/-- ERRCODE.OP, bits 15:8 (R25). -/
def errcodeOp (ec : Word) : BitVec 8 := ec.extractLsb' 8 8

/-- The error record of one error: `(zext_32(op) << 8) | code(E)` (R172). -/
def errorRecord (op : BitVec 8) (e : ErrKind) : Word := (op.setWidth 32 <<< 8) ||| (errCode e).setWidth 32

/-- ERRCODE after an error: recorded only if no error is (R172). -/
def recordError (op : BitVec 8) (e : ErrKind) (ec : Word) : Word :=
  if errcodeCode ec = 0#8 then errorRecord op e else ec

/-- `raise E` by a command of opcode op: nothing but the error record changes (R172, 00_scope.md R13). -/
def raise (op : BitVec 8) (e : ErrKind) (s : State) : Result := .next (s.withErrcode (recordError op e s.errcode))

/-- The return from an error: the record is cleared, nothing is restored (R178, 40_control.md R101). -/
def clearError (s : State) : Result := .next (s.withErrcode 0#32)

/-- The next state of an outcome, if it is one. -/
def nextOf : Result → Option State
  | .next s => some s
  | .fault _ => none
  | .refused _ => none

end Sys2Proof.Machine
end

