-- ==== Sys2Proof/Machine/BitPacker.lean ====
section
/-! DEFINITION. The bit packer commands (42_bit_packer.md). The checks stand in the order of
60_exceptions.md R175; a failed command changes nothing but the error record. -/

namespace Sys2Proof.Machine

/-- BP_CLEAR (R140). -/
def execBpClear (s : State) : Result := .next (s.withBp BitPacker.empty)

/-- BP_PUT w (R141), the field in DATA. -/
def execBpPut (w : Nat) (s : State) : Result :=
  if legalWidth w = false then raise (opcode (.bpPut w)) .badOperand s
  else if s.bp.bitcnt + w > s.params.capacityBits then raise (opcode (.bpPut w)) .capacityExceeded s
  else .next (s.withBp (s.bp.append (fieldBits (dataOperand s) w)))

/-- BP_GET w (R142). -/
def execBpGet (w : Nat) (s : State) : Result :=
  if legalWidth w = false then raise (opcode (.bpGet w)) .badOperand s
  else if s.bp.rdpos + w > s.bp.bitcnt then raise (opcode (.bpGet w)) .bitRequestOutOfRange s
  else .next (s.withBp (s.bp.take w))

/-- BP_REWIND (R143). -/
def execBpRewind (s : State) : Result := .next (s.withBp s.bp.rewind)

/-- BP_SETLEN (R144), the bit count in DATA. -/
def execBpSetlen (s : State) : Result :=
  if (dataOperand s).toNat > s.params.capacityBits then raise (opcode .bpSetlen) .badOperand s
  else .next (s.withBp (s.bp.setLength (dataOperand s).toNat s.params.capacityBits))

/-- The barrel-shifter form of the bytes BP_PUT writes (R146). With o = BITCNT mod 8, n = o + w and B = ⌈n / 8⌉, it is
the o pending bits followed by the field, left-aligned and zero-padded to 8B bits, as B bytes from the most
significant. -/
def barrelBytes (b : BitPacker) (v : Word) (w : Nat) : List Byte :=
  let o := b.bitcnt % 8
  let n := o + w
  let count := (n + 7) / 8
  let pending := (Memory.read b.pbuf (b.bitcnt / 8)).toNat >>> (8 - o)
  let y := pending * 2 ^ w + v.toNat % 2 ^ w
  let z := y * 2 ^ (8 * count - n)
  (List.range count).map (fun k => BitVec.ofNat 8 (z >>> (8 * (count - 1 - k))))

/-- Write consecutive bytes from index j. -/
def writeBytes (m : Memory) (j : Nat) : List Byte → Memory
  | [] => m
  | x :: xs => writeBytes (Memory.write m j x) (j + 1) xs

/-- BP_PUT's change of the bit packer in the barrel-shifter form (R146), the form a datapath would use. The model
runs `BitPacker.append`; this one is stated equal to it. -/
def BitPacker.barrelPut (b : BitPacker) (v : Word) (w : Nat) : BitPacker :=
  { b with pbuf := writeBytes b.pbuf (b.bitcnt / 8) (barrelBytes b v w), bitcnt := b.bitcnt + w }

end Sys2Proof.Machine
end

