-- ==== Sys2Proof/Machine/Control.lean ====
section
/-! DEFINITION. The control commands (40_control.md). -/

namespace Sys2Proof.Machine

/-- NOP (R100): `done`. -/
def execNop (s : State) : Result := .next s

/-- CLRERR (R101): `ERRCODE <- 0; done`. -/
def execClrerr (s : State) : Result := clearError s

end Sys2Proof.Machine
end

