-- ==== Sys2Proof/Machine/TreeBuilder.lean ====
section
/-! DEFINITION. The tree builder commands (41_tree_builder.md). The checks stand in the order of
60_exceptions.md R175; a failed command changes nothing but the error record. -/

namespace Sys2Proof.Machine

/-- TB_CLEAR (R113). -/
def execTbClear (s : State) : Result := .next (s.withTb TreeUnit.empty)

/-- TB_LEAF sym (R114), the weight in DATA. -/
def execTbLeaf (sym : Symbol) (s : State) : Result :=
  if dataOperand s = 0#32 then raise (opcode (.tbLeaf sym)) .badOperand s
  else if s.tb.merged then raise (opcode (.tbLeaf sym)) .sequenceError s
  else if sym ∈ s.tb.loaded then raise (opcode (.tbLeaf sym)) .duplicateSymbol s
  else .next (s.withTb (s.tb.addLeaf sym (dataOperand s)))

/-- TB_MERGE (R116). -/
def execTbMerge (s : State) : Result :=
  if s.tb.pq.length = 0 then raise (opcode .tbMerge) .emptyAlphabet s
  else if s.tb.pq.length = 1 then .next (s.withTb s.tb.markRoot)
  else if twoLowestSum s.tb.pq > maxWord then raise (opcode .tbMerge) .weightOverflow s
  else if s.tb.mergeStep.pq.length = 1 then .next (s.withTb s.tb.mergeStep.markRoot)
  else .next (s.withTb s.tb.mergeStep)

/-- TB_BUILD (R118). -/
def execTbBuild (s : State) : Result :=
  if s.tb.pq.length = 0 then raise (opcode .tbBuild) .emptyAlphabet s
  else if totalWeight s.tb.pq > maxWord then raise (opcode .tbBuild) .weightOverflow s
  else .next (s.withTb s.tb.build)

/-- TB_READ h (R120): a handle at or above NCOUNT has no node and is a BadOperand. -/
def execTbRead (h : Nat) (s : State) : Result :=
  match s.tb.nodes[h]? with
  | none => raise (opcode (.tbRead h)) .badOperand s
  | some n => .next (s.withTb (s.tb.showNode n))

end Sys2Proof.Machine
end

