-- ==== Sys2Proof/Machine/Dispatch.lean ====
section
/-! DEFINITION. One arm for each command (30_encoding.md R86). -/

namespace Sys2Proof.Machine

def exec (i : Instr) (s : State) : Host.Outcome State Fault Refusal :=
  match i with
  -- control (40_control.md)
  | .nop => Sys2Proof.Machine.execNop s
  | .clrerr => Sys2Proof.Machine.execClrerr s
  -- tree builder (41_tree_builder.md)
  | .tbClear => Sys2Proof.Machine.execTbClear s
  | .tbLeaf sym => Sys2Proof.Machine.execTbLeaf sym s
  | .tbMerge => Sys2Proof.Machine.execTbMerge s
  | .tbBuild => Sys2Proof.Machine.execTbBuild s
  | .tbRead h => Sys2Proof.Machine.execTbRead h s
  -- bit packer (42_bit_packer.md)
  | .bpClear => Sys2Proof.Machine.execBpClear s
  | .bpPut w => Sys2Proof.Machine.execBpPut w s
  | .bpGet w => Sys2Proof.Machine.execBpGet w s
  | .bpRewind => Sys2Proof.Machine.execBpRewind s
  | .bpSetlen => Sys2Proof.Machine.execBpSetlen s

end Sys2Proof.Machine
end

