-- ==== Sys2Proof/Machine/Flags.lean ====
section
/-! DEFINITION. The views: STATUS with its flags, ACC, and the counters of the tree builder (10_state.md R24, R31
to R34). They are computed from the state and hold no state of their own (R20). -/

namespace Sys2Proof.Machine

/-- A flag at bit k of a word. -/
def flagAt (b : Bool) (k : Nat) : Word := if b then 1#32 <<< k else 0#32

/-- STATUS.ERR: ERRCODE.CODE ≠ 0 (R24). -/
def statusErr (s : State) : Bool := errcodeCode s.errcode != 0#8

/-- STATUS.BUSY: always 0, since every command is complete when the next access begins (R24, R200). Log 12. -/
def statusBusy (_ : State) : Bool := false

/-- STATUS.ROOT_VALID: ROOTV (R24). -/
def statusRootValid (s : State) : Bool := s.tb.rootv

/-- STATUS.MERGED: MERGED (R24). -/
def statusMerged (s : State) : Bool := s.tb.merged

/-- STATUS.RD_END: RDPOS = BITCNT (R24). -/
def statusRdEnd (s : State) : Bool := s.bp.rdpos == s.bp.bitcnt

/-- STATUS (R24): ERR 0, BUSY 1, ROOT_VALID 2, MERGED 3, RD_END 4, the rest 0. -/
def statusWord (s : State) : Word :=
  flagAt (statusErr s) 0 ||| flagAt (statusBusy s) 1 ||| flagAt (statusRootValid s) 2 |||
    flagAt (statusMerged s) 3 ||| flagAt (statusRdEnd s) 4

/-- ACC_FILL: the payload bits already in the partial byte, BITCNT & 7 (R31). -/
def accFill (b : BitPacker) : Nat := b.bitcnt % 8

/-- ACC_BYTE: PBUF[BITCNT >> 3] while the byte is partial, else 0 (R31). -/
def accByte (b : BitPacker) : Byte := if accFill b = 0 then 0#8 else Memory.read b.pbuf (b.bitcnt / 8)

/-- ACC (R31): ACC_BYTE 7:0, ACC_FILL 10:8. -/
def accWord (b : BitPacker) : Word := (accByte b).setWidth 32 ||| (BitVec.ofNat 32 (accFill b) <<< 8)

/-- A count in bits 8:0 of a register whose bits 31:9 read 0 (R32, R33). -/
def count9 (n : Nat) : Word := (BitVec.ofNat 9 n).setWidth 32

end Sys2Proof.Machine
end

