-- ==== Sys2Proof/Machine/HostPort.lean ====
section
/-! DEFINITION. The device's port: the register page and the PBUF window, what a host read returns, what a host
write does, executing a command word, and reset (10_state.md R21 to R38, 20_memory.md R60 to R67,
30_encoding.md R80, 70_reset_and_hazards.md R190). -/

namespace Sys2Proof.Machine

/-- The register map (R21). -/
def regMap : List (Nat × Reg) :=
  [(0x000, .id), (0x004, .pbufSize), (0x008, .status), (0x00C, .errcode), (0x010, .cmd), (0x014, .data),
   (0x018, .result), (0x01C, .bitcnt), (0x020, .rdpos), (0x024, .acc), (0x028, .tbCount), (0x02C, .tbNodes),
   (0x030, .tbRoot), (0x034, .nodeW), (0x038, .nodeLink)]

/-- The register at an aligned offset of the page; every other one is reserved (R37). -/
def regAt (offset : Nat) : Reg := (regMap.lookup offset).getD .reserved

/-- The offset of a register (R21, R93). `reserved` stands for a range; its first offset is given. -/
def regOffset : Reg → Nat
  | .id => 0x000
  | .pbufSize => 0x004
  | .status => 0x008
  | .errcode => 0x00C
  | .cmd => 0x010
  | .data => 0x014
  | .result => 0x018
  | .bitcnt => 0x01C
  | .rdpos => 0x020
  | .acc => 0x024
  | .tbCount => 0x028
  | .tbNodes => 0x02C
  | .tbRoot => 0x030
  | .nodeW => 0x034
  | .nodeLink => 0x038
  | .reserved => 0x03C

/-- The last offset of the register page (R60). -/
def regPageEnd : Nat := 0xFFF

/-- The first offset of the PBUF window (R60). -/
def pbufBase : Nat := 0x20000000

/-- The ID constant (R22). -/
def idConstant : Word := 0x48504531#32

/-- What an access reaches. -/
inductive Target where
  | reg (r : Reg)
  | byte (i : Nat)
deriving DecidableEq, Repr

/-- Where an n-byte access at a device offset goes: a whole aligned register or one PBUF byte (R66). Every other form
in a region, and every other offset, is refused (R66, R67). Log 5. -/
def locate (p : Params) (offset n : Nat) : Except Refusal Target :=
  if offset ≤ regPageEnd then
    if n = 4 ∧ offset % 4 = 0 then .ok (.reg (regAt offset)) else .error .accessForm
  else if pbufBase ≤ offset ∧ offset < pbufBase + p.pbufBytes then
    if n = 1 then .ok (.byte (offset - pbufBase)) else .error .accessForm
  else .error .unmapped

/-- What a read of a register returns (R22 to R37). -/
def readReg (s : State) : Reg → Word
  | .id => idConstant
  | .pbufSize => BitVec.ofNat 32 s.params.pbufBytes
  | .status => statusWord s
  | .errcode => s.errcode
  | .cmd => 0#32
  | .data => s.data
  | .result => s.bp.result
  | .bitcnt => BitVec.ofNat 32 s.bp.bitcnt
  | .rdpos => BitVec.ofNat 32 s.bp.rdpos
  | .acc => accWord s.bp
  | .tbCount => count9 s.tb.pq.length
  | .tbNodes => count9 s.tb.ncount
  | .tbRoot => s.tb.root.setWidth 32
  | .nodeW => s.tb.nodeW
  | .nodeLink => s.tb.nodeLink
  | .reserved => 0#32

/-- Execute a command word (R80): the command it decodes to, or IllegalCommand with the word's own bits 31:24. -/
def runCommand (c : Word) (s : State) : Result :=
  match decode c with
  | .ok i => exec i s
  | .error _ => raise (opField c) .illegalCommand s

/-- A write to a register (R65): DATA stores, CMD executes, every other register ignores it (R37, R38). -/
def writeReg (r : Reg) (v : Word) (s : State) : Result :=
  match r with
  | .data => .next (s.withData v)
  | .cmd => runCommand v s
  | .id => .next s
  | .pbufSize => .next s
  | .status => .next s
  | .errcode => .next s
  | .result => .next s
  | .bitcnt => .next s
  | .rdpos => .next s
  | .acc => .next s
  | .tbCount => .next s
  | .tbNodes => .next s
  | .tbRoot => .next s
  | .nodeW => .next s
  | .nodeLink => .next s
  | .reserved => .next s

/-- The reset event (R190): every element of the device state takes its reset value. The parameters and the host's
side of the run stay. Log 14. -/
def resetDevice (s : State) : State :=
  { State.resetWith s.params with host := s.host, reads := s.reads }

/-- A host read: the value is returned to the host and nothing else changes (R64). -/
def hostRead (offset n : Nat) (s : State) : Result :=
  match locate s.params offset n with
  | .error r => .refused r
  | .ok (.reg r) => .next (s.logRead (.word (readReg s r)))
  | .ok (.byte i) => .next (s.logRead (.byte (Memory.read s.bp.pbuf i)))

/-- A host write (R65, R61). -/
def hostWrite (offset n : Nat) (v : Word) (s : State) : Result :=
  match locate s.params offset n with
  | .error r => .refused r
  | .ok (.reg r) => writeReg r v s
  | .ok (.byte i) => .next (s.withBp (s.bp.setByte i (v.setWidth 8)))

/-- One event at the port. -/
def perform (ev : HostEvent) (s : State) : Result :=
  match ev with
  | .read offset n => hostRead offset n s
  | .write offset n v => hostWrite offset n v s
  | .reset => .next (resetDevice s)

/-- The host's write of a command word to CMD (R26, R93). -/
def writeCmd (c : Word) : HostEvent := .write 0x010 4 c

end Sys2Proof.Machine
end

