-- ==== Sys2Proof/Machine/Step.lean ====
section
/-! DEFINITION. One step is one host access (00_scope.md R5), the next of the host's list, in program order
(20_memory.md R72). -/

namespace Sys2Proof.Machine

/-- Perform the host's next access; with none left the run is over (70_reset_and_hazards.md R209). -/
def step (s : State) : Host.Outcome State Fault Refusal :=
  match s.host with
  | [] => .fault .endOfRun
  | ev :: rest => perform ev (s.withHost rest)

/-- The machine runs the word the host writes to CMD (R14): the write of a row's word is put in front of the host's
accesses, so that the next step executes it. Log 15. -/
def State.withFetchWord (s : State) (nbits w : Nat) : State := s.withHost (writeCmd (tableWord nbits w) :: s.host)

end Sys2Proof.Machine
end

