-- ==== Sys2Proof/Machine/Assembly.lean ====
section
/-! DEFINITION. The assembly notation of host programs: the access forms and commands of 30_encoding.md R93 and the
pseudo-instructions of R94, each with what the assembler refuses. Logs 16 and 21. -/

namespace Sys2Proof.Machine

/-- One line of a host program (R93, R94). Operands are numbers as written; the assembler checks that they fit. -/
inductive AsmLine where
  /-- `wr REG, v` -/
  | wr (r : Reg) (v : Nat)
  /-- `rd REG` -/
  | rd (r : Reg)
  /-- `wrb PBUF[i], b` -/
  | wrb (i b : Nat)
  /-- `rdb PBUF[i]` -/
  | rdb (i : Nat)
  /-- `nop`, `clrerr`, `tb.clear`, `tb.merge`, `tb.build`, `tb.read h`, `bp.clear`, `bp.put w`, `bp.get w`,
  `bp.rewind`, `bp.setlen` -/
  | command (i : Instr)
  /-- `tb.leaf s` -/
  | tbLeaf (s : Nat)
  /-- `leaf s, wt` -/
  | leaf (s wt : Nat)
  /-- `put v, w` -/
  | put (v w : Nat)
  /-- `putbits b0 b1 …` -/
  | putbits (bits : List Bool)
  /-- `get w` -/
  | get (w : Nat)
  /-- `setlen n` -/
  | setlen (n : Nat)
  /-- `node h` -/
  | node (h : Nat)
  /-- `chkerr` -/
  | chkerr
deriving DecidableEq, Repr

/-- `MemWrite(offset(REG), 4, v)`. -/
def wrReg (r : Reg) (v : Nat) : HostEvent := .write (regOffset r) 4 (BitVec.ofNat 32 v)

/-- `MemRead(offset(REG), 4)`. -/
def rdReg (r : Reg) : HostEvent := .read (regOffset r) 4

/-- A command line: its word written to CMD, if its operand fits (R93). -/
def assembleCommand (i : Instr) : Option (List HostEvent) :=
  if i.wellFormed then some [writeCmd (encode i)] else none

/-- `tb.leaf s`, with 0 ≤ s ≤ 255 (R93). -/
def assembleTbLeaf (s : Nat) : Option (List HostEvent) :=
  if s ≤ 255 then some [writeCmd (encode (.tbLeaf (BitVec.ofNat 8 s)))] else none

/-- `put v, w`: `wr DATA, v` then `bp.put w`, with 1 ≤ w ≤ 32 and v < 2^w (R94). R94 states the refusal for v ≥ 2^w;
that a w outside 1 to 32 is refused too is a DESIGN CHOICE, log 21. -/
def assemblePut (v w : Nat) : Option (List HostEvent) :=
  if legalWidth w = true ∧ v < 2 ^ w then some [wrReg .data v, writeCmd (encode (.bpPut w))] else none

/-- Consecutive chunks of 32 bits, the last holding the remaining 1 to 32 (R94). The first argument bounds the number
of chunks. -/
def chunks32 : Nat → List Bool → List (List Bool)
  | 0, _ => []
  | _ + 1, [] => []
  | fuel + 1, b :: bits => (b :: bits).take 32 :: chunks32 fuel ((b :: bits).drop 32)

/-- The accesses of several lines in order; refused if one of them is. -/
def joinLines : List (Option (List HostEvent)) → Option (List HostEvent)
  | [] => some []
  | none :: _ => none
  | some evs :: rest => (joinLines rest).map (fun more => evs ++ more)

/-- `putbits`: each chunk c0 … cm−1 becomes `put Σ cj·2^(m−1−j), m`, first chunk first, for k ≥ 1 bits (R94).
That an empty line is refused is a DESIGN CHOICE, log 21. -/
def assemblePutbits (bits : List Bool) : Option (List HostEvent) :=
  if bits = [] then none
  else joinLines ((chunks32 bits.length bits).map (fun chunk => assemblePut (bitsValue chunk) chunk.length))

/-- The accesses a line stands for, or none where the assembler refuses it (R93, R94). R94 gives each pseudo-instruction a
condition but says only of `put` with v ≥ 2^w that it is refused. That every pseudo-instruction outside its condition is
refused (`leaf` with wt = 0, `get` with w = 0 or w > 32 and the rest) is a DESIGN CHOICE, log 21. -/
def assemble : AsmLine → Option (List HostEvent)
  | .wr r v => if r ≠ .reserved ∧ v ≤ maxWord then some [wrReg r v] else none
  | .rd r => if r ≠ .reserved then some [rdReg r] else none
  | .wrb i b => if b ≤ 255 then some [.write (pbufBase + i) 1 (BitVec.ofNat 32 b)] else none
  | .rdb i => some [.read (pbufBase + i) 1]
  | .command i => assembleCommand i
  | .tbLeaf s => assembleTbLeaf s
  | .leaf s wt =>
    if 1 ≤ wt ∧ wt ≤ maxWord then (assembleTbLeaf s).map (fun evs => wrReg .data wt :: evs) else none
  | .put v w => assemblePut v w
  | .putbits bits => assemblePutbits bits
  | .get w => if legalWidth w = true then some [writeCmd (encode (.bpGet w)), rdReg .result] else none
  | .setlen n => if n ≤ maxWord then some [wrReg .data n, writeCmd (encode .bpSetlen)] else none
  | .node h => (assembleCommand (.tbRead h)).map (fun evs => evs ++ [rdReg .nodeW, rdReg .nodeLink])
  | .chkerr => some [rdReg .errcode]

/-- A host program: one line after another (R93, R209). -/
def assembleProgram (lines : List AsmLine) : Option (List HostEvent) := joinLines (lines.map assemble)

end Sys2Proof.Machine
end

