-- ==== Sys2Proof/Safety.lean ====
section
/-! DEFINITION. What a good state is, in the terms the claims use: the invariants the spec lists (10_state.md R46, R48,
20_memory.md R63, 60_exceptions.md R170), the error a command raises (R175), the shape of a finished tree, and runs
of several commands. -/

namespace Sys2Proof.Machine

/-! ## The tree builder (10_state.md R40 to R46) -/

/-- A node is a leaf. -/
def Node.isLeaf : Node → Bool
  | .leaf _ _ => true
  | .internal _ _ _ => false

/-- The child handles of a node: none for a leaf, left then right for an internal node (R40). -/
def Node.children : Node → List Handle
  | .leaf _ _ => []
  | .internal _ l r => [l, r]

/-- The weight a node adds to the leaves' total. -/
def Node.leafWeight : Node → Nat
  | .leaf _ w => w.toNat
  | .internal _ _ _ => 0

/-- weight(NODE[h]); 0 for a slot not in use. -/
def TreeUnit.weightAt (t : TreeUnit) (h : Handle) : Nat :=
  match t.nodes[h.toNat]? with
  | none => 0
  | some n => (nodeWeight n).toNat

/-- The sum of the weights of all leaves. -/
def TreeUnit.leafTotal (t : TreeUnit) : Nat := (t.nodes.map Node.leafWeight).sum

/-- Every use of a handle: as a child of an internal node, or as an entry of PQ. -/
def TreeUnit.uses (t : TreeUnit) : List Handle := t.nodes.flatMap Node.children ++ t.pq.map (fun e => e.handle)

/-- The invariants of the tree builder unit. -/
structure TreeUnit.Inv (t : TreeUnit) : Prop where
  /-- NCOUNT ≤ 511 and |PQ| ≤ 256 (R20, R43). -/
  capacity : t.nodes.length ≤ Config.nodeCap ∧ t.pq.length ≤ Config.maxLeaves
  /-- R46(a). -/
  children : ∀ (h : Nat) (w : Word) (l r : Handle), t.nodes[h]? = some (.internal w l r) →
    l.toNat < h ∧ r.toNat < h ∧ l ≠ r ∧ w.toNat = t.weightAt l + t.weightAt r
  /-- R46(b): every handle in use is used exactly once, as a child or as an entry but not both. -/
  owned : ∀ h : Handle, h.toNat < t.nodes.length → t.uses.count h = 1
  /-- Only handles in use are used. -/
  inUse : ∀ h ∈ t.uses, h.toNat < t.nodes.length
  /-- R46(c). -/
  entries : ∀ e ∈ t.pq, e.weight.toNat = t.weightAt e.handle
  /-- R46(d). -/
  conserved : totalWeight t.pq = t.leafTotal
  /-- R46(e). -/
  rootIsEntry : t.rootv = true → ∃ w, t.pq = [{ weight := w, handle := t.root }]
  /-- ROOT is 0 while ROOTV = 0 (R45). -/
  rootClear : t.rootv = false → t.root = 0#9
  /-- R46(f). -/
  unmerged : t.merged = false →
    (∀ n ∈ t.nodes, n.isLeaf = true) ∧ t.nodes.length = t.loaded.length ∧ t.loaded.length = t.pq.length
  /-- Each leaf adds one slot and one entry, each merge adds one slot and takes one entry away. -/
  balance : t.nodes.length + t.pq.length = 2 * t.loaded.length
  /-- LOADED is a set, held as a strictly rising list. -/
  loadedRising : t.loaded.Pairwise (· < ·)
  /-- LOADED holds exactly the symbols of the leaves (R42). -/
  loadedLeaves : ∀ s, s ∈ t.loaded ↔ ∃ w, Node.leaf s w ∈ t.nodes
  /-- Every leaf has weight ≥ 1 (R40). -/
  leafWeights : ∀ s w, Node.leaf s w ∈ t.nodes → w ≠ 0#32
  /-- NODE_LINK's reserved bits 30:26 read 0 (R36). -/
  linkReserved : t.nodeLink &&& 0x7C000000#32 = 0#32

/-- The internal node that has h as a child. -/
def TreeUnit.parent? (t : TreeUnit) (h : Handle) : Option Nat := t.nodes.findIdx? (fun n => n.children.contains h)

/-- The number of nodes above h. A parent's handle is the greater, so the number of slots bounds the climb. -/
def TreeUnit.depthWithin (t : TreeUnit) : Nat → Handle → Nat
  | 0, _ => 0
  | fuel + 1, h =>
    match t.parent? h with
    | none => 0
    | some p => 1 + t.depthWithin fuel (BitVec.ofNat 9 p)

/-- The depth of a node: the length of its code (41_tree_builder.md R124). -/
def TreeUnit.depth (t : TreeUnit) (h : Handle) : Nat := t.depthWithin t.nodes.length h

/-! ## The bit packer (R48, R63) -/

/-- The invariants of the bit packer unit. -/
structure BitPacker.Inv (p : Params) (b : BitPacker) : Prop where
  /-- R48: 0 ≤ RDPOS ≤ BITCNT ≤ 8·PBUF_BYTES. -/
  counts : b.rdpos ≤ b.bitcnt ∧ b.bitcnt ≤ p.capacityBits
  /-- The byte storage is in its canonical form. -/
  canonical : Memory.wf b.pbuf
  /-- Only indices below PBUF_BYTES are stored (R47). -/
  inBuffer : ∀ c ∈ b.pbuf, c.1 < p.pbufBytes

/-- The padding invariant (R63): PB(p) = 0 for every p with BITCNT ≤ p < 8·PBUF_BYTES. -/
def PaddingInv (s : State) : Prop :=
  ∀ p, s.bp.bitcnt ≤ p → p < s.params.capacityBits → streamBit s.bp.pbuf p = false

/-! ## The error record (R25, R170) -/

/-- The errors the device raises; codes 0x03 and 0x04 are the host's (R170). -/
def deviceErrors : List ErrKind :=
  [.emptyAlphabet, .bitRequestOutOfRange, .illegalCommand, .badOperand, .capacityExceeded, .duplicateSymbol,
   .sequenceError, .weightOverflow]

/-- An ERRCODE value the device can hold: empty, or a record of a device error (R25, R170, R172). -/
def LegalErrcode (ec : Word) : Prop := ec = 0#32 ∨ ∃ op, ∃ e ∈ deviceErrors, ec = errorRecord op e

/-- The error a decoded command raises, in the order of checks of R175, with the causes of R170. -/
def firstError (i : Instr) (s : State) : Option ErrKind :=
  match i with
  | .nop => none
  | .clrerr => none
  | .tbClear => none
  | .tbLeaf sym =>
    if s.data.toNat = 0 then some .badOperand
    else if s.tb.merged = true then some .sequenceError
    else if sym ∈ s.tb.loaded then some .duplicateSymbol
    else none
  | .tbMerge =>
    if s.tb.pq = [] then some .emptyAlphabet
    else if 2 ≤ s.tb.pq.length ∧ 4294967295 < twoLowestSum s.tb.pq then some .weightOverflow
    else none
  | .tbBuild =>
    if s.tb.pq = [] then some .emptyAlphabet
    else if 4294967295 < totalWeight s.tb.pq then some .weightOverflow
    else none
  | .tbRead h => if s.tb.nodes.length ≤ h then some .badOperand else none
  | .bpClear => none
  | .bpPut w =>
    if w = 0 ∨ 32 < w then some .badOperand
    else if 8 * s.params.pbufBytes < s.bp.bitcnt + w then some .capacityExceeded
    else none
  | .bpGet w =>
    if w = 0 ∨ 32 < w then some .badOperand
    else if s.bp.bitcnt < s.bp.rdpos + w then some .bitRequestOutOfRange
    else none
  | .bpRewind => none
  | .bpSetlen => if 8 * s.params.pbufBytes < s.data.toNat then some .badOperand else none

/-- The state after a command of opcode `op` raises the error of code `code` (R172): ERRCODE takes CODE 7:0 and OP 15:8
if its CODE was 0, and nothing else changes. -/
def State.recorded (s : State) (op code : BitVec 8) : State :=
  { s with
    errcode := if s.errcode.extractLsb' 0 8 = 0#8 then (op.setWidth 32 <<< 8) ||| code.setWidth 32 else s.errcode }

/-- The words of opcode `op` with a bit of `mask` set raise IllegalCommand, code 0x10, and do nothing else (30_encoding.md
R80 to R84). -/
def ReservedBitsAreIllegal (op : BitVec 8) (mask : Word) : Prop :=
  ∀ (c : Word) (s : State), c.extractLsb' 24 8 = op → c &&& mask ≠ 0#32 → runCommand c s = .next (s.recorded op 0x10#8)

/-! ## The whole machine -/

/-- The invariant every step keeps. -/
structure State.Inv (s : State) : Prop where
  params : s.params.Legal
  tree : s.tb.Inv
  packer : s.bp.Inv s.params
  errcode : LegalErrcode s.errcode

/-! ## Families and runs of commands -/

/-- The tree builder commands (41_tree_builder.md). -/
def isTreeCommand : Instr → Bool
  | .nop => false
  | .clrerr => false
  | .tbClear => true
  | .tbLeaf _ => true
  | .tbMerge => true
  | .tbBuild => true
  | .tbRead _ => true
  | .bpClear => false
  | .bpPut _ => false
  | .bpGet _ => false
  | .bpRewind => false
  | .bpSetlen => false

/-- The bit packer commands (42_bit_packer.md). -/
def isPackerCommand : Instr → Bool
  | .nop => false
  | .clrerr => false
  | .tbClear => false
  | .tbLeaf _ => false
  | .tbMerge => false
  | .tbBuild => false
  | .tbRead _ => false
  | .bpClear => true
  | .bpPut _ => true
  | .bpGet _ => true
  | .bpRewind => true
  | .bpSetlen => true

/-- A run of commands, each with the value the host wrote to DATA before it. -/
def runCommands : List (Word × Instr) → State → Result
  | [], s => .next s
  | (v, i) :: rest, s =>
    match exec i (s.withData v) with
    | .next t => runCommands rest t
    | .fault f => .fault f
    | .refused r => .refused r

/-- One `put` for each field (value, width). -/
def putCommands (fields : List (Word × Nat)) : List (Word × Instr) := fields.map (fun f => (f.1, .bpPut f.2))

/-- One TB_LEAF for each (symbol, weight). -/
def leafCommands (leaves : List (Symbol × Word)) : List (Word × Instr) := leaves.map (fun l => (l.2, .tbLeaf l.1))

/-- The bits of a sequence of fields, in order (42_bit_packer.md R147). -/
def fieldsBits (fields : List (Word × Nat)) : List Bool := fields.flatMap (fun f => fieldBits f.1 f.2)

/-- BP_GETs of the given widths, with the RESULT after each, and the state at the end. -/
def getFields : List Nat → State → Option (List Word × State)
  | [], s => some ([], s)
  | w :: ws, s =>
    match exec (.bpGet w) s with
    | .next t => (getFields ws t).map (fun r => (t.bp.result :: r.1, r.2))
    | .fault _ => none
    | .refused _ => none

end Sys2Proof.Machine
end

