-- ==== Sys2Proof/Certificates/Slice0/Obligations.lean ====
section
/-! DEFINITION. The statements for the provers. Each docstring names the rules it formalises. Where a statement needs
a premise on the state, the premise is an invariant that `StepKeepsTheInvariant` keeps. -/

open Sys2Proof Sys2Proof.Machine

/-! ## Encoding (30_encoding.md) -/

/-- Decoding the word of a well-formed command gives the command back, with every operand at every value its field
admits (R80 to R86). -/
def Obligations.DecodeOfEncodeIsIdentity : Prop :=
  ∀ i : Instr, i.wellFormed = true → decode (encode i) = .ok i

/-- A word that decodes is the word of the command it decodes to, so no two words are one command (R80 to R86, R89). -/
def Obligations.EncodeOfDecodeIsIdentity : Prop :=
  ∀ (c : Word) (i : Instr), decode c = .ok i → i.wellFormed = true ∧ encode i = c

/-- R86: "A word c selects the row when `(c & mask) = match`." Every row of the map with its match and mask. -/
def Obligations.OpcodeMapSelectsTheCommand : Prop :=
  ∀ c : Word,
    (decode c = .ok .nop ↔ c &&& 0xFFFFFFFF#32 = 0x00000000#32) ∧
    (decode c = .ok .clrerr ↔ c &&& 0xFFFFFFFF#32 = 0x01000000#32) ∧
    (decode c = .ok .tbClear ↔ c &&& 0xFFFFFFFF#32 = 0x10000000#32) ∧
    (∀ sym : Symbol, decode c = .ok (.tbLeaf sym) ↔
      c &&& 0xFF00FFFF#32 = 0x11000000#32 ∧ sym = c.extractLsb' 16 8) ∧
    (decode c = .ok .tbMerge ↔ c &&& 0xFFFFFFFF#32 = 0x12000000#32) ∧
    (decode c = .ok .tbBuild ↔ c &&& 0xFFFFFFFF#32 = 0x13000000#32) ∧
    (∀ h : Nat, decode c = .ok (.tbRead h) ↔
      c &&& 0xFFFFFE00#32 = 0x14000000#32 ∧ h = (c.extractLsb' 0 9).toNat) ∧
    (decode c = .ok .bpClear ↔ c &&& 0xFFFFFFFF#32 = 0x20000000#32) ∧
    (∀ w : Nat, decode c = .ok (.bpPut w) ↔
      c &&& 0xFFFFFFC0#32 = 0x21000000#32 ∧ w = (c.extractLsb' 0 6).toNat) ∧
    (∀ w : Nat, decode c = .ok (.bpGet w) ↔
      c &&& 0xFFFFFFC0#32 = 0x22000000#32 ∧ w = (c.extractLsb' 0 6).toNat) ∧
    (decode c = .ok .bpRewind ↔ c &&& 0xFFFFFFFF#32 = 0x23000000#32) ∧
    (decode c = .ok .bpSetlen ↔ c &&& 0xFFFFFFFF#32 = 0x24000000#32)

/-- No word selects two rows of the opcode map, with a row's match its opcode in bits 31:24 and its mask those bits and
the format's reserved bits (a sentence of R86 that the spec derives from the table). -/
def Obligations.NoWordSelectsTwoRows : Prop :=
  ∀ c : Word, opcodeMap.Pairwise (fun a b : OpRow =>
    ¬(c &&& (0xFF000000#32 ||| reservedMask a.format) = a.op.setWidth 32 <<< 24 ∧
      c &&& (0xFF000000#32 ||| reservedMask b.format) = b.op.setWidth 32 <<< 24))

/-- R87: a reserved opcode (0x02 to 0x0F, 0x15 to 0x1F, 0x25 to 0xFF), or a listed one with a nonzero reserved bit,
written to CMD raises IllegalCommand (code 0x10) with the word's own bits 31:24 as OP: the error record is written if
none is held, and nothing else changes but the host's own list. -/
def Obligations.ReservedWordsRaiseIllegalCommand : Prop :=
  ∀ (c : Word) (s : State) (rest : List HostEvent), s.host = .write 0x010 4 c :: rest →
    (let op := (c.extractLsb' 24 8).toNat
     (0x02 ≤ op ∧ op ≤ 0x0F) ∨ (0x15 ≤ op ∧ op ≤ 0x1F) ∨ 0x25 ≤ op ∨
     (op ∈ [0x00, 0x01, 0x10, 0x12, 0x13, 0x20, 0x23, 0x24] ∧ c &&& 0x00FFFFFF#32 ≠ 0#32) ∨
     (op = 0x11 ∧ c &&& 0x0000FFFF#32 ≠ 0#32) ∨
     (op = 0x14 ∧ c &&& 0x00FFFE00#32 ≠ 0#32) ∨
     ((op = 0x21 ∨ op = 0x22) ∧ c &&& 0x00FFFFC0#32 ≠ 0#32)) →
    step s = .next ((s.withHost rest).recorded (c.extractLsb' 24 8) 0x10#8)

/-- Words written out from the encodings of R81 to R86 decode to the commands they stand for (the decoding check of
95_test_vectors.md section 2.1). -/
def Obligations.WrittenOutWordsDecode : Prop :=
  decode 0x00000000#32 = .ok .nop ∧ decode 0x01000000#32 = .ok .clrerr ∧
  decode 0x10000000#32 = .ok .tbClear ∧ decode 0x11410000#32 = .ok (.tbLeaf 0x41#8) ∧
  decode 0x12000000#32 = .ok .tbMerge ∧ decode 0x13000000#32 = .ok .tbBuild ∧
  decode 0x140001FF#32 = .ok (.tbRead 511) ∧ decode 0x20000000#32 = .ok .bpClear ∧
  decode 0x21000020#32 = .ok (.bpPut 32) ∧ decode 0x22000001#32 = .ok (.bpGet 1) ∧
  decode 0x23000000#32 = .ok .bpRewind ∧ decode 0x24000000#32 = .ok .bpSetlen

/-! ## The step, the port and reset -/

/-- When the host's next access writes a word to CMD that decodes to i, the step is exec of i on the state with that
access taken off the host's list (R26, R80). Where the host's list stands is the model's choice, log 3. -/
def Obligations.StepRunsTheDecodedCommand : Prop :=
  ∀ (s : State) (c : Word) (i : Instr) (rest : List HostEvent),
    s.host = .write 0x010 4 c :: rest → decode c = .ok i → step s = exec i (s.withHost rest)

/-- With no access left there is no step: the run is over. The named stop is the model's choice, log 4. -/
def Obligations.StepWithoutAccessEndsTheRun : Prop :=
  ∀ s : State, s.host = [] → step s = .fault .endOfRun

/-- R66 and R67: an access of another width or alignment inside a region is refused, and so is every access at an
unmapped offset, read or write; the two forms R66 admits are never refused. The two names of the refusal are the
model's choice, log 5. -/
def Obligations.OnlyTheTwoAccessFormsHaveAStep : Prop :=
  ∀ (s : State) (ev : HostEvent) (rest : List HostEvent) (offset n : Nat) (v : Word),
    s.host = ev :: rest → ev = .read offset n ∨ ev = .write offset n v →
    (offset ≤ 0xFFF → (n = 4 ∧ offset % 4 = 0 → ∃ t, step s = .next t) ∧
      (¬(n = 4 ∧ offset % 4 = 0) → step s = .refused .accessForm)) ∧
    (0x20000000 ≤ offset ∧ offset < 0x20000000 + s.params.pbufBytes → (n = 1 → ∃ t, step s = .next t) ∧
      (n ≠ 1 → step s = .refused .accessForm)) ∧
    (0xFFF < offset ∧ ¬(0x20000000 ≤ offset ∧ offset < 0x20000000 + s.params.pbufBytes) →
      step s = .refused .unmapped)

/-- R64: a read returns a word (register) or a byte (PBUF), and no device state changes. -/
def Obligations.ReadsHaveNoSideEffect : Prop :=
  ∀ (s t : State) (offset n : Nat) (rest : List HostEvent),
    s.host = .read offset n :: rest → step s = .next t →
    (n = 4 ∧ offset % 4 = 0 ∧ offset ≤ 0xFFF ∧
      t = { s with host := rest, reads := s.reads ++ [.word (readReg s (regAt offset))] }) ∨
    (n = 1 ∧ ∃ i, i < s.params.pbufBytes ∧ offset = 0x20000000 + i ∧
      t = { s with host := rest, reads := s.reads ++ [.byte (Memory.read s.bp.pbuf i)] })

/-- The value a read of each register offset returns, in a state that meets the invariant (R21 to R37). -/
def Obligations.RegisterReadsReturnTheirRulesValue : Prop :=
  ∀ (s : State) (offset : Nat) (rest : List HostEvent), s.Inv →
    s.host = .read offset 4 :: rest → offset % 4 = 0 → offset ≤ 0xFFF →
    ∃ v : Word, step s = .next { s with host := rest, reads := s.reads ++ [.word v] } ∧
      (offset = 0x000 → v = 0x48504531#32) ∧
      (offset = 0x004 → v.toNat = s.params.pbufBytes) ∧
      (offset = 0x008 →
        v.getLsbD 0 = decide (s.errcode.extractLsb' 0 8 ≠ 0#8) ∧ v.getLsbD 1 = false ∧
        v.getLsbD 2 = s.tb.rootv ∧ v.getLsbD 3 = s.tb.merged ∧
        v.getLsbD 4 = decide (s.bp.rdpos = s.bp.bitcnt) ∧ v.toNat < 32) ∧
      (offset = 0x00C → v = s.errcode ∧ v.extractLsb' 16 16 = 0#16) ∧
      (offset = 0x010 → v = 0#32) ∧
      (offset = 0x014 → v = s.data) ∧
      (offset = 0x018 → v = s.bp.result) ∧
      (offset = 0x01C → v.toNat = s.bp.bitcnt) ∧
      (offset = 0x020 → v.toNat = s.bp.rdpos) ∧
      (offset = 0x024 →
        v.extractLsb' 0 8 =
          (if s.bp.bitcnt % 8 = 0 then 0#8 else Memory.read s.bp.pbuf (s.bp.bitcnt / 8)) ∧
        (v.extractLsb' 8 3).toNat = s.bp.bitcnt % 8 ∧ v.extractLsb' 11 21 = 0#21) ∧
      (offset = 0x028 → v.toNat = s.tb.pq.length) ∧
      (offset = 0x02C → v.toNat = s.tb.nodes.length) ∧
      (offset = 0x030 → v.toNat = s.tb.root.toNat) ∧
      (offset = 0x034 → v = s.tb.nodeW) ∧
      (offset = 0x038 → v = s.tb.nodeLink ∧ v.extractLsb' 26 5 = 0#5) ∧
      (0x03C ≤ offset → v = 0#32)

/-- R37 and R38: a write to a register marked RO, or to a reserved offset, changes no state and raises no error; a read of
a reserved offset returns 0 and changes nothing else. -/
def Obligations.ReadOnlyAndReservedWritesAreIgnored : Prop :=
  ∀ (s : State) (offset : Nat) (rest : List HostEvent),
    (∀ v : Word, s.host = .write offset 4 v :: rest →
      offset ∈ [0x000, 0x004, 0x008, 0x00C, 0x018, 0x01C, 0x020, 0x024, 0x028, 0x02C, 0x030, 0x034, 0x038] ∨
        (0x03C ≤ offset ∧ offset ≤ 0xFFC ∧ offset % 4 = 0) →
      step s = .next { s with host := rest }) ∧
    (s.host = .read offset 4 :: rest → 0x03C ≤ offset → offset ≤ 0xFFC → offset % 4 = 0 →
      step s = .next { s with host := rest, reads := s.reads ++ [.word 0#32] })

/-- R27: a host write of DATA stores the value and changes nothing else of the device, and no command, legal or not,
writes DATA. -/
def Obligations.OnlyTheHostWritesData : Prop :=
  (∀ (s : State) (v : Word) (rest : List HostEvent), s.host = .write 0x014 4 v :: rest →
    step s = .next { s with host := rest, data := v }) ∧
  (∀ (s t : State) (c : Word) (rest : List HostEvent), s.host = .write 0x010 4 c :: rest → step s = .next t →
    t.data = s.data)

/-- R61: a PBUF window read returns PBUF[i] and changes no device state; a write sets PBUF[i] and no other byte, changes
neither BITCNT nor RDPOS, and raises no error; it can break the padding invariant. That the written byte is bits 7:0 of
the event's value is the model's choice, log 11. -/
def Obligations.PbufWindowReadsAndWritesOneByte : Prop :=
  (∀ (s : State) (i : Nat) (rest : List HostEvent), i < s.params.pbufBytes → Memory.wf s.bp.pbuf →
    (s.host = .read (0x20000000 + i) 1 :: rest →
      step s = .next { s with host := rest, reads := s.reads ++ [.byte (Memory.read s.bp.pbuf i)] }) ∧
    (∀ v : Word, s.host = .write (0x20000000 + i) 1 v :: rest →
      ∃ m : Memory, step s = .next { s with host := rest, bp := { s.bp with pbuf := m } } ∧
        Memory.read m i = v.extractLsb' 0 8 ∧ ∀ j, j ≠ i → Memory.read m j = Memory.read s.bp.pbuf j)) ∧
  (∃ (s t : State) (v : Word), s.Inv ∧ s.host = [.write 0x20000000 1 v] ∧ PaddingInv s ∧ step s = .next t ∧
    ¬PaddingInv t)

/-- R190: reset between two accesses sets every element of the device state to its reset value, whatever the state
before; every register then reads its value of R21. That the parameters, the host's list and the values already read
survive reset is the model's choice, log 14. -/
def Obligations.ResetSetsEveryElement : Prop :=
  ∀ (s : State) (rest : List HostEvent), s.host = .reset :: rest →
    ∃ t : State, step s = .next t ∧
      t.params = s.params ∧ t.host = rest ∧ t.reads = s.reads ∧
      t.data = 0#32 ∧ t.errcode = 0#32 ∧
      t.tb.nodes = [] ∧ t.tb.pq = [] ∧ t.tb.hist = [] ∧ t.tb.loaded = [] ∧ t.tb.merged = false ∧
      t.tb.rootv = false ∧ t.tb.root = 0#9 ∧ t.tb.nodeW = 0#32 ∧ t.tb.nodeLink = 0#32 ∧
      (∀ i, Memory.read t.bp.pbuf i = 0#8) ∧ t.bp.bitcnt = 0 ∧ t.bp.rdpos = 0 ∧ t.bp.result = 0#32 ∧
      readReg t .id = 0x48504531#32 ∧ readReg t .pbufSize = BitVec.ofNat 32 s.params.pbufBytes ∧
      readReg t .status = 0x00000010#32 ∧
      ∀ r ∈ [Reg.errcode, .cmd, .data, .result, .bitcnt, .rdpos, .acc, .tbCount, .tbNodes, .tbRoot, .nodeW, .nodeLink,
        .reserved], readReg t r = 0#32

/-- The state after reset is the state after `clrerr; tb.clear; bp.clear` with DATA = 0, from any state (R191, which the
spec derives from R190, R101, R113 and R140). -/
def Obligations.SoftwareResetEqualsReset : Prop :=
  ∀ (s : State) (rest : List HostEvent),
    ∃ a b c : State, exec .clrerr (s.withHost rest) = .next a ∧ exec .tbClear a = .next b ∧
      exec .bpClear b = .next c ∧ step { s with host := .reset :: rest } = .next (c.withData 0#32)

/-! ## Errors (60_exceptions.md) -/

/-- R172: a command of opcode op that raises E changes nothing but the error record, and that only if it held no error: it
then takes op and E's code. The error a decoded command raises is `firstError`, the order of checks of R175; a word that
decodes to no command raises IllegalCommand. -/
def Obligations.FailedCommandOnlyRecordsTheFirstError : Prop :=
  (∀ (i : Instr) (s : State) (e : ErrKind), firstError i s = some e →
    exec i s = .next (s.recorded (opcode i) (errCode e))) ∧
  (∀ (c : Word) (s : State) (r : Reject), decode c = .error r →
    runCommand c s = .next (s.recorded (c.extractLsb' 24 8) 0x10#8))

/-- A command that raises no error leaves the error record as it was, unless it is CLRERR, and does the same whatever
error is recorded (R173, R25). -/
def Obligations.SuccessfulCommandKeepsTheErrorRecord : Prop :=
  ∀ (i : Instr) (s : State), firstError i s = none → i ≠ .clrerr →
    ∃ t, exec i s = .next t ∧ t.errcode = s.errcode ∧
      ∀ ec : Word, exec i { s with errcode := ec } = .next { t with errcode := ec }

/-- R174 and R178: reissuing a failed command on the state it left raises the same error again, and the first record is
kept; CLRERR then clears the record and restores nothing. -/
def Obligations.ReissuedCommandFailsAgain : Prop :=
  ∀ (i : Instr) (s t : State) (e : ErrKind), firstError i s = some e → exec i s = .next t →
    firstError i t = some e ∧ exec i t = .next t ∧
      exec .clrerr t = .next { s with errcode := 0#32 } ∧ firstError i { s with errcode := 0#32 } = some e

/-! ## Control commands (40_control.md) -/

/-- R100: NOP, the word 0, changes nothing; a reserved bit raises IllegalCommand. -/
def Obligations.NopChangesNothing : Prop :=
  decode 0x00000000#32 = .ok .nop ∧ ReservedBitsAreIllegal 0x00#8 0x00FFFFFF#32 ∧ ∀ s : State, exec .nop s = .next s

/-- R101: CLRERR clears the error record, and with it STATUS.ERR, and changes nothing else; with a reserved bit set it
raises IllegalCommand and clears nothing. -/
def Obligations.ClrerrClearsOnlyTheErrorRecord : Prop :=
  decode 0x01000000#32 = .ok .clrerr ∧ ReservedBitsAreIllegal 0x01#8 0x00FFFFFF#32 ∧
  ∀ s : State, ∃ t, exec .clrerr s = .next t ∧ t = { s with errcode := 0#32 } ∧ (readReg t .status).getLsbD 0 = false

/-! ## Tree builder (41_tree_builder.md) -/

/-- R113: TB_CLEAR empties the tree builder and touches nothing else. -/
def Obligations.TbClearEmptiesTheTreeBuilder : Prop :=
  decode 0x10000000#32 = .ok .tbClear ∧ ReservedBitsAreIllegal 0x10#8 0x00FFFFFF#32 ∧
  ∀ s : State, exec .tbClear s = .next { s with
    tb := { nodes := [], pq := [], hist := [], loaded := [], merged := false, rootv := false, root := 0#9,
            nodeW := 0#32, nodeLink := 0#32 } }

/-- R114: TB_LEAF sym with weight DATA. The checks in order: weight 0 is BadOperand (0x11), a leaf after a merge
SequenceError (0x14), a loaded symbol DuplicateSymbol (0x13). Otherwise the leaf takes the next handle, which is below 256
and does not wrap, and enters the container and the history; the root is invalidated; nothing else changes. -/
def Obligations.TbLeafLoadsOneLeaf : Prop :=
  (∀ sym : Symbol, decode (0x11000000#32 ||| (sym.setWidth 32 <<< 16)) = .ok (.tbLeaf sym)) ∧
  ReservedBitsAreIllegal 0x11#8 0x0000FFFF#32 ∧
  ∀ (s : State) (sym : Symbol), s.tb.Inv →
    (s.data = 0#32 → exec (.tbLeaf sym) s = .next (s.recorded 0x11#8 0x11#8)) ∧
    (s.data ≠ 0#32 → s.tb.merged = true → exec (.tbLeaf sym) s = .next (s.recorded 0x11#8 0x14#8)) ∧
    (s.data ≠ 0#32 → s.tb.merged = false → sym ∈ s.tb.loaded →
      exec (.tbLeaf sym) s = .next (s.recorded 0x11#8 0x13#8)) ∧
    (s.data ≠ 0#32 → s.tb.merged = false → sym ∉ s.tb.loaded →
      s.tb.nodes.length ≤ 255 ∧
      ∃ (h : Handle) (loaded : List Symbol), h.toNat = s.tb.nodes.length ∧
        (∀ x, x ∈ loaded ↔ x = sym ∨ x ∈ s.tb.loaded) ∧
        exec (.tbLeaf sym) s = .next { s with tb := { s.tb with
          nodes := s.tb.nodes ++ [.leaf sym s.data],
          pq := s.tb.pq ++ [{ weight := s.data, handle := h }],
          hist := s.tb.hist ++ [.ins { weight := s.data, handle := h }],
          loaded := loaded, rootv := false, root := 0#9 } })

/-- R111: an insertion appends to the container and to the history. R112: an extraction from a non-empty container takes
out an entry of minimum weight m, the one at the index tieSelect gives among the candidates (the entries of weight m, in PQ
order), records it, and changes nothing else; the index is below the number of candidates and is 0 for a single one. -/
def Obligations.ContainerPrimitivesFollowTheirRules : Prop :=
  (∀ (t : TreeUnit) (e : Entry), t.insert e = { t with pq := t.pq ++ [e], hist := t.hist ++ [.ins e] }) ∧
  (∀ t : TreeUnit, t.pq ≠ [] →
    ∃ (m : Nat) (e : Entry) (cands : List Entry),
      (∃ x ∈ t.pq, x.weight.toNat = m) ∧ (∀ x ∈ t.pq, m ≤ x.weight.toNat) ∧
      cands = t.pq.filter (fun x => x.weight.toNat == m) ∧
      tieSelect t.hist cands < cands.length ∧ (cands.length = 1 → tieSelect t.hist cands = 0) ∧
      cands[tieSelect t.hist cands]? = some e ∧
      t.extractMin = some (e, { t with pq := t.pq.erase e, hist := t.hist ++ [.ext e] }))

/-- R115: on two or more entries whose two lightest weights fit together, MergeStep extracts a and then b, makes the next
free node of the sum of their weights with a on the left and b on the right, enters it into the container, sets MERGED, and
changes nothing else. -/
def Obligations.MergeStepCombinesTheTwoExtracted : Prop :=
  ∀ t : TreeUnit, t.Inv → 2 ≤ t.pq.length → ∃ (a b : Entry) (u v : TreeUnit),
    t.extractMin = some (a, u) ∧ u.extractMin = some (b, v) ∧
    (a.weight.toNat + b.weight.toNat ≤ 4294967295 → ∃ (w : Word) (h : Handle),
      w.toNat = a.weight.toNat + b.weight.toNat ∧ h.toNat = t.nodes.length ∧
      t.mergeStep = { t with
        nodes := t.nodes ++ [.internal w a.handle b.handle],
        pq := (t.pq.erase a).erase b ++ [{ weight := w, handle := h }],
        hist := t.hist ++ [.ext a, .ext b, .ins { weight := w, handle := h }],
        merged := true })

/-- R116: TB_MERGE. An empty container is EmptyAlphabet (0x01). One entry is no merge: it becomes the root. With more,
let a be the entry extracted first, of minimum weight, and b the second, of minimum weight among the rest: if their
weights sum past 2^32 - 1 it is WeightOverflow (0x15); else a new node of that weight has a on the left and b on the right
(R115), the root is set exactly when one entry remains, and nothing else changes. -/
def Obligations.TbMergeMergesTheTwoLightest : Prop :=
  decode 0x12000000#32 = .ok .tbMerge ∧ ReservedBitsAreIllegal 0x12#8 0x00FFFFFF#32 ∧
  ∀ s : State, s.tb.Inv →
    (s.tb.pq = [] → exec .tbMerge s = .next (s.recorded 0x12#8 0x01#8)) ∧
    (∀ e : Entry, s.tb.pq = [e] →
      exec .tbMerge s = .next { s with tb := { s.tb with root := e.handle, rootv := true } }) ∧
    (2 ≤ s.tb.pq.length → ∃ (a b : Entry) (u v : TreeUnit),
      s.tb.extractMin = some (a, u) ∧ u.extractMin = some (b, v) ∧
      a ∈ s.tb.pq ∧ (∀ x ∈ s.tb.pq, a.weight.toNat ≤ x.weight.toNat) ∧
      b ∈ s.tb.pq.erase a ∧ (∀ x ∈ s.tb.pq.erase a, b.weight.toNat ≤ x.weight.toNat) ∧
      (4294967295 < a.weight.toNat + b.weight.toNat → exec .tbMerge s = .next (s.recorded 0x12#8 0x15#8)) ∧
      (a.weight.toNat + b.weight.toNat ≤ 4294967295 → ∃ (w : Word) (h : Handle),
        w.toNat = a.weight.toNat + b.weight.toNat ∧ h.toNat = s.tb.nodes.length ∧
        exec .tbMerge s = .next { s with tb := { s.tb with
          nodes := s.tb.nodes ++ [.internal w a.handle b.handle],
          pq := (s.tb.pq.erase a).erase b ++ [{ weight := w, handle := h }],
          hist := s.tb.hist ++ [.ext a, .ext b, .ins { weight := w, handle := h }],
          merged := true,
          root := if s.tb.pq.length = 2 then h else s.tb.root,
          rootv := if s.tb.pq.length = 2 then true else s.tb.rootv } }))

/-- m1 + m2, the sum TB_MERGE checks before any extraction, is the sum of the two extracted weights whichever candidates
tieSelect picks (41_tree_builder.md, a corner case the spec derives). -/
def Obligations.OverflowCheckIsExactForEveryTieBreak : Prop :=
  ∀ (pq : List Entry) (a b : Entry), a ∈ pq → b ∈ pq.erase a →
    (∀ x ∈ pq, a.weight.toNat ≤ x.weight.toNat) → (∀ x ∈ pq.erase a, b.weight.toNat ≤ x.weight.toNat) →
    twoLowestSum pq = a.weight.toNat + b.weight.toNat

/-- The node a merge step makes has the lighter child on its left, and its handle is greater than both children's
(R117, which the spec derives from R112 and R115). -/
def Obligations.LighterEntryGoesLeft : Prop :=
  ∀ t : TreeUnit, t.Inv → 2 ≤ t.pq.length → twoLowestSum t.pq ≤ 4294967295 →
    ∃ (w : Word) (l r : Handle), t.mergeStep.nodes = t.nodes ++ [.internal w l r] ∧
      w.toNat = t.weightAt l + t.weightAt r ∧ t.weightAt l ≤ t.weightAt r ∧
      l.toNat < t.nodes.length ∧ r.toNat < t.nodes.length

/-- R118: TB_BUILD. An empty container is EmptyAlphabet (0x01), a total weight past 2^32 - 1 WeightOverflow (0x15). One
entry becomes the root with no merge; on more entries it is a MergeStep and then the same again. With L entries it appends
L - 1 internal nodes, leaves one entry, whose handle is the root, sets MERGED if L ≥ 2, and changes nothing else but the
history. -/
def Obligations.TbBuildMergesUntilOneRootRemains : Prop :=
  decode 0x13000000#32 = .ok .tbBuild ∧ ReservedBitsAreIllegal 0x13#8 0x00FFFFFF#32 ∧
  ∀ s : State,
    (s.tb.pq = [] → exec .tbBuild s = .next (s.recorded 0x13#8 0x01#8)) ∧
    (4294967295 < (s.tb.pq.map (fun e => e.weight.toNat)).sum →
      exec .tbBuild s = .next (s.recorded 0x13#8 0x15#8)) ∧
    ((s.tb.pq.map (fun e => e.weight.toNat)).sum ≤ 4294967295 →
      (∀ e : Entry, s.tb.pq = [e] →
        exec .tbBuild s = .next { s with tb := { s.tb with root := e.handle, rootv := true } }) ∧
      (2 ≤ s.tb.pq.length → exec .tbBuild s = exec .tbBuild { s with tb := s.tb.mergeStep }) ∧
      (s.tb.pq ≠ [] → ∃ (new : List Node) (hist : List PQOp) (e : Entry),
        new.length = s.tb.pq.length - 1 ∧ (∀ n ∈ new, n.isLeaf = false) ∧
        exec .tbBuild s = .next { s with tb := { s.tb with
          nodes := s.tb.nodes ++ new, pq := [e], hist := s.tb.hist ++ hist,
          merged := s.tb.merged || decide (2 ≤ s.tb.pq.length), root := e.handle, rootv := true } }))

/-- A TB_BUILD after any number of TB_MERGEs ends as a TB_BUILD issued directly (a corner case of R118 that the spec derives
from R115 and R116). -/
def Obligations.BuildAfterMergesIsBuild : Prop :=
  ∀ (k : Nat) (s t : State), firstError .tbBuild s = none →
    runCommands (List.replicate k (s.data, .tbMerge)) s = .next t →
    ∃ u, exec .tbBuild s = .next u ∧ exec .tbBuild t = .next u

/-- TB_BUILD on a complete tree changes nothing (a corner case of R118). -/
def Obligations.BuildOfACompleteTreeChangesNothing : Prop :=
  ∀ s : State, s.tb.Inv → s.tb.rootv = true → exec .tbBuild s = .next s

/-- R120: TB_READ of a handle at or above NCOUNT is BadOperand (0x11) and leaves NODE_W and NODE_LINK; of a handle in use
it puts the node's weight into NODE_W and its links into NODE_LINK in the layout of R36, and changes nothing else. -/
def Obligations.TbReadShowsTheNode : Prop :=
  (∀ h : Nat, h < 512 → decode (0x14000000#32 ||| BitVec.ofNat 32 h) = .ok (.tbRead h)) ∧
  ReservedBitsAreIllegal 0x14#8 0x00FFFE00#32 ∧
  (∀ (s : State) (h : Nat), s.tb.nodes.length ≤ h → exec (.tbRead h) s = .next (s.recorded 0x14#8 0x11#8)) ∧
  (∀ (s : State) (h : Nat) (sym : Symbol) (w : Word), s.tb.nodes[h]? = some (.leaf sym w) →
    ∃ link : Word, link.extractLsb' 31 1 = 1#1 ∧ link.extractLsb' 26 5 = 0#5 ∧ link.extractLsb' 18 8 = sym ∧
      link.extractLsb' 0 18 = 0#18 ∧
      exec (.tbRead h) s = .next { s with tb := { s.tb with nodeW := w, nodeLink := link } }) ∧
  (∀ (s : State) (h : Nat) (w : Word) (l r : Handle), s.tb.nodes[h]? = some (.internal w l r) →
    ∃ link : Word, link.extractLsb' 18 14 = 0#14 ∧ link.extractLsb' 9 9 = r ∧ link.extractLsb' 0 9 = l ∧
      exec (.tbRead h) s = .next { s with tb := { s.tb with nodeW := w, nodeLink := link } })

/-- After a successful TB_BUILD the root's weight is the sum of the weights of all leaves (R121, which the spec derives
from R118 and R46). -/
def Obligations.RootWeighsWhatTheLeavesWeigh : Prop :=
  ∀ s : State, s.tb.Inv → firstError .tbBuild s = none →
    ∃ (t : State) (n : Node), exec .tbBuild s = .next t ∧ t.tb.rootv = true ∧
      t.tb.nodes[t.tb.root.toNat]? = some n ∧ (nodeWeight n).toNat = t.tb.leafTotal

/-- The same tree builder commands with the same DATA values, run twice, each time from a TB_CLEAR or a reset in whatever
state, leave the same tree builder unit (R123, which the spec derives from R112 to R114). -/
def Obligations.SameTreeCommandsBuildTheSameTree : Prop :=
  ∀ (cmds : List (Word × Instr)) (s s' a a' : State), (∀ x ∈ cmds, isTreeCommand x.2 = true) →
    (exec .tbClear s = .next a ∨ ∃ rest, s.host = .reset :: rest ∧ step s = .next a) →
    (exec .tbClear s' = .next a' ∨ ∃ rest, s'.host = .reset :: rest ∧ step s' = .next a') →
    ∃ t t' : State, runCommands cmds a = .next t ∧ runCommands cmds a' = .next t' ∧ t.tb = t'.tb

/-- Load distinct symbols with weights of at least 1 and a total that fits into a cleared unit, and build: a leaf of
strictly smaller weight is at least as deep, whatever the tie-break (R124; the spec supplies its argument from general
knowledge). -/
def Obligations.LighterLeavesAreNoShallower : Prop :=
  ∀ (s : State) (leaves : List (Symbol × Word)), leaves ≠ [] → (leaves.map Prod.fst).Nodup →
    (∀ l ∈ leaves, l.2 ≠ 0#32) → (leaves.map (fun l => l.2.toNat)).sum ≤ 4294967295 →
    ∃ a b t : State, exec .tbClear s = .next a ∧ runCommands (leafCommands leaves) a = .next b ∧
      exec .tbBuild b = .next t ∧ t.tb.rootv = true ∧
      ∀ (i j : Nat) (x y : Symbol) (u v : Word), t.tb.nodes[i]? = some (.leaf x u) → t.tb.nodes[j]? = some (.leaf y v) →
        u.toNat < v.toNat → t.tb.depth (BitVec.ofNat 9 j) ≤ t.tb.depth (BitVec.ofNat 9 i)

/-! ## Bit packer (42_bit_packer.md) -/

/-- R140: BP_CLEAR makes every PBUF byte, BITCNT, RDPOS and RESULT 0 and touches nothing else; ACC then reads 0 and
STATUS.RD_END 1. -/
def Obligations.BpClearEmptiesTheBitPacker : Prop :=
  decode 0x20000000#32 = .ok .bpClear ∧ ReservedBitsAreIllegal 0x20#8 0x00FFFFFF#32 ∧
  ∀ s : State, ∃ (m : Memory) (t : State),
    t = { s with bp := { pbuf := m, bitcnt := 0, rdpos := 0, result := 0#32 } } ∧
    exec .bpClear s = .next t ∧ (∀ i, Memory.read m i = 0#8) ∧
    readReg t .acc = 0#32 ∧ (readReg t .status).getLsbD 4 = true ∧ PaddingInv t

/-- R141: BP_PUT w. A width of 0 or above 32 is BadOperand (0x11), a field that does not fit CapacityExceeded (0x12).
Otherwise bit w-1-k of DATA goes to position BITCNT + k (R62), the rest of the final byte becomes 0, every other position,
and every byte before BITCNT div 8 or after the final byte, keeps its value, BITCNT goes up by w, and nothing else
changes. -/
def Obligations.BpPutAppendsTheField : Prop :=
  (∀ w : Nat, w < 64 → decode (0x21000000#32 ||| BitVec.ofNat 32 w) = .ok (.bpPut w)) ∧
  ReservedBitsAreIllegal 0x21#8 0x00FFFFC0#32 ∧
  ∀ (s : State) (w : Nat), Memory.wf s.bp.pbuf →
    (w = 0 ∨ 32 < w → exec (.bpPut w) s = .next (s.recorded 0x21#8 0x11#8)) ∧
    (1 ≤ w → w ≤ 32 → 8 * s.params.pbufBytes < s.bp.bitcnt + w →
      exec (.bpPut w) s = .next (s.recorded 0x21#8 0x12#8)) ∧
    (1 ≤ w → w ≤ 32 → s.bp.bitcnt + w ≤ 8 * s.params.pbufBytes →
      ∃ m : Memory,
        exec (.bpPut w) s = .next { s with bp := { s.bp with pbuf := m, bitcnt := s.bp.bitcnt + w } } ∧
        (∀ q, streamBit m q =
          if q < s.bp.bitcnt then streamBit s.bp.pbuf q
          else if q < s.bp.bitcnt + w then s.data.getLsbD (w - 1 - (q - s.bp.bitcnt))
          else if q / 8 = (s.bp.bitcnt + w - 1) / 8 then false
          else streamBit s.bp.pbuf q) ∧
        (∀ i, i < s.bp.bitcnt / 8 ∨ (s.bp.bitcnt + w - 1) / 8 < i → Memory.read m i = Memory.read s.bp.pbuf i))

/-- R142: BP_GET w. A width of 0 or above 32 is BadOperand (0x11), a read past BITCNT BitRequestOutOfRange (0x02), and both
leave RDPOS and RESULT. Otherwise RESULT holds the next w bits, the first most significant, and 0 above them; RDPOS goes up
by w; PBUF, BITCNT and everything else stay. -/
def Obligations.BpGetReadsTheNextField : Prop :=
  (∀ w : Nat, w < 64 → decode (0x22000000#32 ||| BitVec.ofNat 32 w) = .ok (.bpGet w)) ∧
  ReservedBitsAreIllegal 0x22#8 0x00FFFFC0#32 ∧
  ∀ (s : State) (w : Nat),
    (w = 0 ∨ 32 < w → exec (.bpGet w) s = .next (s.recorded 0x22#8 0x11#8)) ∧
    (1 ≤ w → w ≤ 32 → s.bp.bitcnt < s.bp.rdpos + w → exec (.bpGet w) s = .next (s.recorded 0x22#8 0x02#8)) ∧
    (1 ≤ w → w ≤ 32 → s.bp.rdpos + w ≤ s.bp.bitcnt →
      ∃ r : Word,
        exec (.bpGet w) s = .next { s with bp := { s.bp with result := r, rdpos := s.bp.rdpos + w } } ∧
        ∀ k, r.getLsbD k = if k < w then streamBit s.bp.pbuf (s.bp.rdpos + (w - 1 - k)) else false)

/-- R143: BP_REWIND sets RDPOS to 0 and changes nothing else. -/
def Obligations.BpRewindZeroesTheReadPosition : Prop :=
  decode 0x23000000#32 = .ok .bpRewind ∧ ReservedBitsAreIllegal 0x23#8 0x00FFFFFF#32 ∧
  ∀ s : State, exec .bpRewind s = .next { s with bp := { s.bp with rdpos := 0 } }

/-- R144: BP_SETLEN with the count n in DATA. A count past the capacity is BadOperand (0x11). Otherwise BITCNT = n,
RDPOS = 0, every bit from n up to the capacity becomes 0, so that the padding invariant holds; earlier bits, bytes before
n div 8 and everything else stay. -/
def Obligations.BpSetlenSetsTheCountAndZeroesTheRest : Prop :=
  decode 0x24000000#32 = .ok .bpSetlen ∧ ReservedBitsAreIllegal 0x24#8 0x00FFFFFF#32 ∧
  ∀ s : State, Memory.wf s.bp.pbuf →
    (8 * s.params.pbufBytes < s.data.toNat → exec .bpSetlen s = .next (s.recorded 0x24#8 0x11#8)) ∧
    (s.data.toNat ≤ 8 * s.params.pbufBytes →
      ∃ (m : Memory) (t : State), t = { s with bp := { s.bp with pbuf := m, bitcnt := s.data.toNat, rdpos := 0 } } ∧
        exec .bpSetlen s = .next t ∧ PaddingInv t ∧
        (∀ q, streamBit m q =
          if s.data.toNat ≤ q ∧ q < 8 * s.params.pbufBytes then false else streamBit s.bp.pbuf q) ∧
        (∀ i, i < s.data.toNat / 8 → Memory.read m i = Memory.read s.bp.pbuf i))

/-- Appending f1 and then f2 is appending f1 followed by f2, as a whole bit packer state; and for w1 + w2 ≤ 32 the single
append is BP_PUT of (v1 mod 2^w1)·2^w2 + (v2 mod 2^w2) (R145, which the spec derives from R141). -/
def Obligations.TwoPutsConcatenate : Prop :=
  (∀ (b : BitPacker) (f1 f2 : List Bool), Memory.wf b.pbuf →
    (b.append f1).append f2 = b.append (f1 ++ f2)) ∧
  (∀ (s : State) (v1 v2 : Word) (w1 w2 : Nat), Memory.wf s.bp.pbuf → 1 ≤ w1 → 1 ≤ w2 → w1 + w2 ≤ 32 →
    s.bp.bitcnt + w1 + w2 ≤ 8 * s.params.pbufBytes →
    ∃ t u u' : State, exec (.bpPut w1) (s.withData v1) = .next t ∧ exec (.bpPut w2) (t.withData v2) = .next u ∧
      exec (.bpPut (w1 + w2))
        (s.withData (BitVec.ofNat 32 ((v1.toNat % 2 ^ w1) * 2 ^ w2 + v2.toNat % 2 ^ w2))) = .next u' ∧
      u.bp = u'.bp)

/-- BP_PUT in the barrel-shifter form, on whole bytes, leaves the same bit packer state as the bit-by-bit form (R146,
which the spec derives from R141 and R62). -/
def Obligations.BarrelShifterFormEqualsBpPut : Prop :=
  ∀ (s : State) (w : Nat), Memory.wf s.bp.pbuf → 1 ≤ w → w ≤ 32 → s.bp.bitcnt + w ≤ 8 * s.params.pbufBytes →
    exec (.bpPut w) s = .next { s with bp := s.bp.barrelPut s.data w }

/-- From BP_CLEAR, fields of legal widths that fit together leave BITCNT their total width, the stream the fields in order,
each most significant bit first, and every later bit 0 (R147, which the spec derives from R140 and R141). -/
def Obligations.PackContract : Prop :=
  ∀ (s : State) (fields : List (Word × Nat)), (∀ f ∈ fields, 1 ≤ f.2 ∧ f.2 ≤ 32) →
    (fields.map Prod.snd).sum ≤ 8 * s.params.pbufBytes →
    ∃ a t : State, exec .bpClear s = .next a ∧ runCommands (putCommands fields) a = .next t ∧
      t.errcode = s.errcode ∧ t.tb = s.tb ∧
      t.bp.bitcnt = (fields.map Prod.snd).sum ∧ t.bp.rdpos = 0 ∧
      ∀ q, streamBit t.bp.pbuf q = (fieldsBits fields).getD q false

/-- After the sequence of the pack contract, and again after a BP_REWIND, BP_GETs of the same widths return the fields in
order (each value modulo 2^w), and a further BP_GET of any legal width raises BitRequestOutOfRange (R148, which the spec
derives from R141 to R143). -/
def Obligations.RoundTripLaw : Prop :=
  ∀ (s : State) (fields : List (Word × Nat)), (∀ f ∈ fields, 1 ≤ f.2 ∧ f.2 ≤ 32) →
    (fields.map Prod.snd).sum ≤ 8 * s.params.pbufBytes →
    ∃ a t u r u' : State, exec .bpClear s = .next a ∧ runCommands (putCommands fields) a = .next t ∧
      getFields (fields.map Prod.snd) t =
        some (fields.map (fun f => BitVec.ofNat 32 (f.1.toNat % 2 ^ f.2)), u) ∧
      exec .bpRewind u = .next r ∧
      getFields (fields.map Prod.snd) r =
        some (fields.map (fun f => BitVec.ofNat 32 (f.1.toNat % 2 ^ f.2)), u') ∧
      ∀ w, 1 ≤ w → w ≤ 32 → exec (.bpGet w) u = .next (u.recorded 0x22#8 0x02#8) ∧
        exec (.bpGet w) u' = .next (u'.recorded 0x22#8 0x02#8)

/-- BP_SETLEN of n on a buffer the host has loaded makes the first n bits of the loaded bytes the stream: BP_GETs of legal
widths that sum to at most n return those bits in order, most significant bit first, and the bits from n on are zeroed
(R149, which the spec derives from R142, R144 and R61). -/
def Obligations.LoadedStreamContract : Prop :=
  ∀ (s : State) (ws : List Nat), Memory.wf s.bp.pbuf → s.data.toNat ≤ 8 * s.params.pbufBytes →
    (∀ w ∈ ws, 1 ≤ w ∧ w ≤ 32) → ws.sum ≤ s.data.toNat →
    ∃ (t u : State) (rs : List Word), exec .bpSetlen s = .next t ∧ t.bp.bitcnt = s.data.toNat ∧ PaddingInv t ∧
      getFields ws t = some (rs, u) ∧
      rs.length = ws.length ∧
      ∀ (k : Nat) (r : Word), rs[k]? = some r →
        r = BitVec.ofNat 32 (bitsValue (readBits s.bp.pbuf ((ws.take k).sum) (ws.getD k 0)))

/-! ## Frames and whole-machine rules -/

/-- Tree builder commands never touch the bit packer, DATA, the parameters or the host's side; a failed one touches the
error record only, any other leaves the error record (41_tree_builder.md, its opening paragraph). -/
def Obligations.TreeCommandsFrame : Prop :=
  ∀ (i : Instr) (s t : State), isTreeCommand i = true → exec i s = .next t →
    t.bp = s.bp ∧ t.data = s.data ∧ t.params = s.params ∧ t.host = s.host ∧ t.reads = s.reads ∧
      (firstError i s ≠ none → t.tb = s.tb) ∧ (firstError i s = none → t.errcode = s.errcode) ∧
      (∀ a, Memory.read t.bp.pbuf a = Memory.read s.bp.pbuf a)

/-- Bit packer commands never touch the tree builder, DATA, the parameters or the host's side; a failed one touches the
error record only, any other leaves the error record (42_bit_packer.md, its opening paragraph). -/
def Obligations.PackerCommandsFrame : Prop :=
  ∀ (i : Instr) (s t : State), isPackerCommand i = true → exec i s = .next t →
    t.tb = s.tb ∧ t.data = s.data ∧ t.params = s.params ∧ t.host = s.host ∧ t.reads = s.reads ∧
      (firstError i s ≠ none → t.bp = s.bp) ∧ (firstError i s = none → t.errcode = s.errcode)

/-- R28, R35, R36, R25: among all commands RESULT is written only by BP_GET and BP_CLEAR, NODE_W and NODE_LINK only by
TB_READ and TB_CLEAR, and ERRCODE only by CLRERR and by an error that finds it empty. -/
def Obligations.EachResultRegisterHasItsWriters : Prop :=
  ∀ (i : Instr) (s t : State), exec i s = .next t →
    (t.bp.result ≠ s.bp.result → i = .bpClear ∨ ∃ w, i = .bpGet w) ∧
    (t.tb.nodeW ≠ s.tb.nodeW ∨ t.tb.nodeLink ≠ s.tb.nodeLink → i = .tbClear ∨ ∃ h, i = .tbRead h) ∧
    (t.errcode ≠ s.errcode → i = .clrerr ∨ (firstError i s ≠ none ∧ s.errcode.extractLsb' 0 8 = 0#8))

/-- R40: "The tree builder never writes a slot again once it is in use, until the next TB_CLEAR": every command but
TB_CLEAR keeps every slot in use as it is, and only TB_LEAF, TB_MERGE and TB_BUILD add slots. -/
def Obligations.SlotsInUseAreNeverRewritten : Prop :=
  ∀ (i : Instr) (s t : State), i ≠ .tbClear → exec i s = .next t →
    (∀ (h : Nat) (n : Node), s.tb.nodes[h]? = some n → t.tb.nodes[h]? = some n) ∧
    (t.tb.nodes ≠ s.tb.nodes → i = .tbMerge ∨ i = .tbBuild ∨ ∃ sym, i = .tbLeaf sym)

/-- 0 ≤ RDPOS ≤ BITCNT ≤ 8·PBUF_BYTES is kept by every step (R48, which the spec derives from R140 to R144). Among the
commands BITCNT changes only through BP_PUT (which adds the width), BP_SETLEN (to DATA) and BP_CLEAR (to 0); RDPOS only
through BP_GET (which adds the width), BP_REWIND, BP_SETLEN and BP_CLEAR (to 0). -/
def Obligations.BitCountsStayInBounds : Prop :=
  (∀ s t : State, step s = .next t → s.bp.rdpos ≤ s.bp.bitcnt ∧ s.bp.bitcnt ≤ 8 * s.params.pbufBytes →
    t.bp.rdpos ≤ t.bp.bitcnt ∧ t.bp.bitcnt ≤ 8 * t.params.pbufBytes) ∧
  (∀ (i : Instr) (s t : State), exec i s = .next t →
    (t.bp.bitcnt ≠ s.bp.bitcnt → (∃ w, i = .bpPut w ∧ t.bp.bitcnt = s.bp.bitcnt + w) ∨
      (i = .bpSetlen ∧ t.bp.bitcnt = s.data.toNat) ∨ (i = .bpClear ∧ t.bp.bitcnt = 0)) ∧
    (t.bp.rdpos ≠ s.bp.rdpos → (∃ w, i = .bpGet w ∧ t.bp.rdpos = s.bp.rdpos + w) ∨
      ((i = .bpRewind ∨ i = .bpSetlen ∨ i = .bpClear) ∧ t.bp.rdpos = 0)))

/-- Only a host write through the PBUF window can break the padding invariant: every other step keeps it. BP_SETLEN within
the capacity, BP_CLEAR and reset establish it (R63, which the spec derives from R140 to R142 and R144). -/
def Obligations.PaddingInvariantIsKept : Prop :=
  (∀ s t : State, Memory.wf s.bp.pbuf → PaddingInv s → step s = .next t →
    (∀ i v rest, i < s.params.pbufBytes → s.host ≠ .write (0x20000000 + i) 1 v :: rest) → PaddingInv t) ∧
  (∀ s t : State, Memory.wf s.bp.pbuf → (exec .bpClear s = .next t ∨
    (s.data.toNat ≤ 8 * s.params.pbufBytes ∧ exec .bpSetlen s = .next t) ∨
    (∃ rest, s.host = .reset :: rest ∧ step s = .next t)) → PaddingInv t)

/-- No step changes the parameters, and every step takes exactly the next event off the host's list (R9, R20, R72; the
list is the model's choice, log 3). -/
def Obligations.StepTakesOneEventAndKeepsTheParameters : Prop :=
  ∀ s t : State, step s = .next t →
    t.params = s.params ∧ (∃ ev, s.host = ev :: t.host) ∧ (t.reads = s.reads ∨ ∃ v, t.reads = s.reads ++ [v])

/-- The reset state of every instance with legal parameters meets the invariant, State.reset among them, and its padding
invariant holds (R46, R48, R63, R190). -/
def Obligations.ResetMeetsTheInvariant : Prop :=
  (∀ p : Params, p.Legal → (State.resetWith p).Inv ∧ PaddingInv (State.resetWith p)) ∧ State.reset.Inv

/-- Every step, from any state that meets the invariant, gives a state that meets it: R46(a) to (f) of the tree builder,
the bounds R48, the canonical buffer, and an error record that holds only the codes R170 lets the device record. -/
def Obligations.StepKeepsTheInvariant : Prop :=
  ∀ s t : State, s.Inv → step s = .next t → t.Inv

/-! ## Assembly (30_encoding.md R93, R94) -/

/-- R94: `putbits` appends exactly its bits in order, whatever the chunk boundaries: the assembler accepts any k ≥ 1 bits,
and when they fit the device performs every access of the expansion and appends the bits. -/
def Obligations.PutbitsAppendsItsBits : Prop :=
  ∀ (bits : List Bool) (s : State), bits ≠ [] → Memory.wf s.bp.pbuf →
    s.bp.bitcnt + bits.length ≤ 8 * s.params.pbufBytes →
    ∃ (evs : List HostEvent) (t : State), assemble (.putbits bits) = some evs ∧
      Host.Core.run Sys2Proof.core evs.length (s.withHost evs) = .next t ∧
      t.host = [] ∧ t.errcode = s.errcode ∧ t.tb = s.tb ∧ t.reads = s.reads ∧ t.bp = s.bp.append bits
end

