-- ==== Sys2Proof/Laws/Memory.lean ====
section
/-! SUPPORT. The laws of byte storage: what a write does to every byte, that it keeps the canonical form, and that
equal contents are equal data. -/

namespace Sys2Proof.Machine

@[simp] theorem Memory.read_nil (i : Nat) : Memory.read [] i = 0#8 := rfl

theorem Memory.read_consByte (i j : Nat) (v : Byte) (m : Memory) :
    Memory.read (consByte i v m) j = if j = i ∧ v ≠ 0#8 then v else Memory.read m j := by
  unfold consByte
  split
  · simp_all
  · simp_all [Memory.read]

/-- A canonical list's tail is canonical, and its head is below everything in the tail. -/
theorem Memory.wf_cons {a : Nat} {b : Byte} {m : Memory} :
    Memory.wf ((a, b) :: m) ↔ (∀ c ∈ m, a < c.1) ∧ b ≠ 0#8 ∧ Memory.wf m := by
  simp [Memory.wf]
  tauto

@[simp] theorem Memory.wf_nil : Memory.wf [] := by simp [Memory.wf]

theorem Memory.read_eq_zero_of_not_listed {m : Memory} {i : Nat} (h : ∀ c ∈ m, c.1 ≠ i) : Memory.read m i = 0#8 := by
  induction m with
  | nil => rfl
  | cons c m ih =>
    obtain ⟨a, b⟩ := c
    have ha : a ≠ i := h (a, b) (by simp)
    simp only [Memory.read, Ne.symm ha, if_false]
    exact ih (fun c hc => h c (by simp [hc]))

/-- Every byte but the written one is unchanged; no canonical form is needed for this. -/
theorem Memory.read_write_other {i j : Nat} (m : Memory) (v : Byte) (h : j ≠ i) :
    Memory.read (Memory.write m i v) j = Memory.read m j := by
  induction m with
  | nil => simp [Memory.write, Memory.read_consByte, h]
  | cons c m ih =>
    obtain ⟨a, b⟩ := c
    simp only [Memory.write]
    split
    · simp [Memory.read_consByte, h]
    · split
      · subst_vars; simp [Memory.read_consByte, Memory.read, h]
      · simp [Memory.read, ih]

/-- The written byte reads back. -/
theorem Memory.read_write_same {m : Memory} (hm : Memory.wf m) (i : Nat) (v : Byte) :
    Memory.read (Memory.write m i v) i = v := by
  induction m with
  | nil => simp [Memory.write, Memory.read_consByte]; tauto
  | cons c m ih =>
    obtain ⟨a, b⟩ := c
    obtain ⟨hlt, -, hm⟩ := Memory.wf_cons.1 hm
    simp only [Memory.write]
    split
    next hia =>
      have : Memory.read ((a, b) :: m) i = 0#8 := by
        apply Memory.read_eq_zero_of_not_listed
        intro c hc
        rcases List.mem_cons.1 hc with rfl | hc
        · simp; omega
        · have := hlt c hc; omega
      rw [Memory.read_consByte, this]; split <;> simp_all
    next hia =>
      split
      next h =>
        have : Memory.read m i = 0#8 := by
          apply Memory.read_eq_zero_of_not_listed
          intro c hc
          have := hlt c hc; omega
        rw [Memory.read_consByte, this]; split <;> simp_all
      next h => simp [Memory.read, h, ih hm]

/-- What a write does to every byte. -/
theorem Memory.read_write {m : Memory} (hm : Memory.wf m) (i j : Nat) (v : Byte) :
    Memory.read (Memory.write m i v) j = if j = i then v else Memory.read m j := by
  split
  · subst_vars; exact Memory.read_write_same hm _ v
  · exact Memory.read_write_other m v ‹_›

/-- A write lists no index but the old ones and its own. -/
theorem Memory.mem_write {m : Memory} {i : Nat} {v : Byte} {c : Host.Cell} (h : c ∈ Memory.write m i v) :
    c ∈ m ∨ c = (i, v) := by
  induction m with
  | nil => simp only [Memory.write, consByte] at h; split at h <;> simp_all
  | cons d m ih =>
    obtain ⟨a, b⟩ := d
    simp only [Memory.write, consByte] at h
    split at h
    · (split at h <;> simp_all; tauto)
    · split at h
      · (split at h <;> simp_all; tauto)
      · rcases List.mem_cons.1 h with rfl | h
        · simp
        · rcases ih h with h | h <;> simp [h]

theorem Memory.wf_consByte {m : Memory} {i : Nat} (v : Byte) (hm : Memory.wf m) (hi : ∀ c ∈ m, i < c.1) :
    Memory.wf (consByte i v m) := by
  unfold consByte
  split
  · exact hm
  · exact Memory.wf_cons.2 ⟨hi, ‹_›, hm⟩

/-- A write keeps the canonical form. -/
theorem Memory.wf_write {m : Memory} (hm : Memory.wf m) (i : Nat) (v : Byte) : Memory.wf (Memory.write m i v) := by
  induction m with
  | nil => exact Memory.wf_consByte v hm (by simp)
  | cons c m ih =>
    obtain ⟨a, b⟩ := c
    obtain ⟨hlt, hb, hm'⟩ := Memory.wf_cons.1 hm
    simp only [Memory.write]
    split
    next hia =>
      refine Memory.wf_consByte v hm (fun c hc => ?_)
      rcases List.mem_cons.1 hc with rfl | hc
      · exact hia
      · have := hlt c hc; omega
    next hia =>
      split
      next h => exact Memory.wf_consByte v hm' (fun c hc => by have := hlt c hc; omega)
      next h =>
        refine Memory.wf_cons.2 ⟨fun c hc => ?_, hb, ih hm'⟩
        rcases Memory.mem_write hc with hc | rfl
        · exact hlt c hc
        · simp; omega

/-- A listed cell reads as its byte. -/
theorem Memory.read_of_mem {m : Memory} (hm : Memory.wf m) {c : Host.Cell} (h : c ∈ m) : Memory.read m c.1 = c.2 := by
  induction m with
  | nil => simp at h
  | cons d m ih =>
    obtain ⟨a, b⟩ := d
    obtain ⟨hlt, -, hm⟩ := Memory.wf_cons.1 hm
    rcases List.mem_cons.1 h with rfl | h
    · simp [Memory.read]
    · have := hlt c h
      simp [Memory.read, show c.1 ≠ a by omega, ih hm h]

/-- Equal contents are equal data. -/
theorem Memory.ext_of_read {m n : Memory} (hm : Memory.wf m) (hn : Memory.wf n)
    (h : ∀ i, Memory.read m i = Memory.read n i) : m = n := by
  induction m generalizing n with
  | nil =>
    cases n with
    | nil => rfl
    | cons d n =>
      have := h d.1
      rw [Memory.read_of_mem hn (by simp)] at this
      exact absurd this.symm (hn.2 d (by simp))
  | cons c m ih =>
    cases n with
    | nil =>
      have := h c.1
      rw [Memory.read_of_mem hm (by simp)] at this
      exact absurd this (hm.2 c (by simp))
    | cons d n =>
      obtain ⟨a, b⟩ := c
      obtain ⟨a', b'⟩ := d
      obtain ⟨hlt, hb, hm'⟩ := Memory.wf_cons.1 hm
      obtain ⟨hlt', hb', hn'⟩ := Memory.wf_cons.1 hn
      have below : ∀ {k : Memory} {x y : Nat} {z : Byte}, (∀ c ∈ k, y < c.1) → x < y →
          Memory.read ((y, z) :: k) x = 0#8 := by
        intro k x y z hk hxy
        apply Memory.read_eq_zero_of_not_listed
        intro c hc
        rcases List.mem_cons.1 hc with rfl | hc
        · simp; omega
        · have := hk c hc; omega
      have haa : a = a' := by
        rcases Nat.lt_trichotomy a a' with hlt2 | heq | hgt
        · have := h a
          rw [below hlt' hlt2] at this
          simp [Memory.read] at this
          exact absurd this hb
        · exact heq
        · have := h a'
          rw [below hlt hgt] at this
          simp [Memory.read] at this
          exact absurd this.symm hb'
      subst haa
      have hbb : b = b' := by simpa [Memory.read] using h a
      subst hbb
      congr 1
      refine ih hm' hn' (fun i => ?_)
      by_cases hi : i = a
      · subst hi
        rw [Memory.read_eq_zero_of_not_listed, Memory.read_eq_zero_of_not_listed]
        · intro c hc; have := hlt' c hc; omega
        · intro c hc; have := hlt c hc; omega
      · simpa [Memory.read, hi] using h i

end Sys2Proof.Machine
end

