-- ==== Sys2Proof/Laws/State.lean ====
section
/-! SUPPORT. One lemma for each field of the state and each named update, and the same for the units' own
operations, so that no later proof unfolds a record update. -/

namespace Sys2Proof.Machine

variable (s : State)

@[simp] theorem withHost_params (l : List HostEvent) : (s.withHost l).params = s.params := rfl
@[simp] theorem withHost_host (l : List HostEvent) : (s.withHost l).host = l := rfl
@[simp] theorem withHost_reads (l : List HostEvent) : (s.withHost l).reads = s.reads := rfl
@[simp] theorem withHost_data (l : List HostEvent) : (s.withHost l).data = s.data := rfl
@[simp] theorem withHost_errcode (l : List HostEvent) : (s.withHost l).errcode = s.errcode := rfl
@[simp] theorem withHost_tb (l : List HostEvent) : (s.withHost l).tb = s.tb := rfl
@[simp] theorem withHost_bp (l : List HostEvent) : (s.withHost l).bp = s.bp := rfl

@[simp] theorem logRead_params (v : ReadValue) : (s.logRead v).params = s.params := rfl
@[simp] theorem logRead_host (v : ReadValue) : (s.logRead v).host = s.host := rfl
@[simp] theorem logRead_reads (v : ReadValue) : (s.logRead v).reads = s.reads ++ [v] := rfl
@[simp] theorem logRead_data (v : ReadValue) : (s.logRead v).data = s.data := rfl
@[simp] theorem logRead_errcode (v : ReadValue) : (s.logRead v).errcode = s.errcode := rfl
@[simp] theorem logRead_tb (v : ReadValue) : (s.logRead v).tb = s.tb := rfl
@[simp] theorem logRead_bp (v : ReadValue) : (s.logRead v).bp = s.bp := rfl

@[simp] theorem withData_params (v : Word) : (s.withData v).params = s.params := rfl
@[simp] theorem withData_host (v : Word) : (s.withData v).host = s.host := rfl
@[simp] theorem withData_reads (v : Word) : (s.withData v).reads = s.reads := rfl
@[simp] theorem withData_data (v : Word) : (s.withData v).data = v := rfl
@[simp] theorem withData_errcode (v : Word) : (s.withData v).errcode = s.errcode := rfl
@[simp] theorem withData_tb (v : Word) : (s.withData v).tb = s.tb := rfl
@[simp] theorem withData_bp (v : Word) : (s.withData v).bp = s.bp := rfl

@[simp] theorem withErrcode_params (v : Word) : (s.withErrcode v).params = s.params := rfl
@[simp] theorem withErrcode_host (v : Word) : (s.withErrcode v).host = s.host := rfl
@[simp] theorem withErrcode_reads (v : Word) : (s.withErrcode v).reads = s.reads := rfl
@[simp] theorem withErrcode_data (v : Word) : (s.withErrcode v).data = s.data := rfl
@[simp] theorem withErrcode_errcode (v : Word) : (s.withErrcode v).errcode = v := rfl
@[simp] theorem withErrcode_tb (v : Word) : (s.withErrcode v).tb = s.tb := rfl
@[simp] theorem withErrcode_bp (v : Word) : (s.withErrcode v).bp = s.bp := rfl

@[simp] theorem withTb_params (t : TreeUnit) : (s.withTb t).params = s.params := rfl
@[simp] theorem withTb_host (t : TreeUnit) : (s.withTb t).host = s.host := rfl
@[simp] theorem withTb_reads (t : TreeUnit) : (s.withTb t).reads = s.reads := rfl
@[simp] theorem withTb_data (t : TreeUnit) : (s.withTb t).data = s.data := rfl
@[simp] theorem withTb_errcode (t : TreeUnit) : (s.withTb t).errcode = s.errcode := rfl
@[simp] theorem withTb_tb (t : TreeUnit) : (s.withTb t).tb = t := rfl
@[simp] theorem withTb_bp (t : TreeUnit) : (s.withTb t).bp = s.bp := rfl

@[simp] theorem withBp_params (b : BitPacker) : (s.withBp b).params = s.params := rfl
@[simp] theorem withBp_host (b : BitPacker) : (s.withBp b).host = s.host := rfl
@[simp] theorem withBp_reads (b : BitPacker) : (s.withBp b).reads = s.reads := rfl
@[simp] theorem withBp_data (b : BitPacker) : (s.withBp b).data = s.data := rfl
@[simp] theorem withBp_errcode (b : BitPacker) : (s.withBp b).errcode = s.errcode := rfl
@[simp] theorem withBp_tb (b : BitPacker) : (s.withBp b).tb = s.tb := rfl
@[simp] theorem withBp_bp (b : BitPacker) : (s.withBp b).bp = b := rfl

@[simp] theorem resetWith_params (p : Params) : (State.resetWith p).params = p := rfl
@[simp] theorem resetWith_data (p : Params) : (State.resetWith p).data = 0#32 := rfl
@[simp] theorem resetWith_errcode (p : Params) : (State.resetWith p).errcode = 0#32 := rfl
@[simp] theorem resetWith_tb (p : Params) : (State.resetWith p).tb = TreeUnit.empty := rfl
@[simp] theorem resetWith_bp (p : Params) : (State.resetWith p).bp = BitPacker.empty := rfl

/-! The tree builder unit. -/

variable (t : TreeUnit)

@[simp] theorem insert_nodes (e : Entry) : (t.insert e).nodes = t.nodes := rfl
@[simp] theorem insert_pq (e : Entry) : (t.insert e).pq = t.pq ++ [e] := rfl
@[simp] theorem insert_hist (e : Entry) : (t.insert e).hist = t.hist ++ [.ins e] := rfl
@[simp] theorem insert_loaded (e : Entry) : (t.insert e).loaded = t.loaded := rfl
@[simp] theorem insert_merged (e : Entry) : (t.insert e).merged = t.merged := rfl
@[simp] theorem insert_rootv (e : Entry) : (t.insert e).rootv = t.rootv := rfl
@[simp] theorem insert_root (e : Entry) : (t.insert e).root = t.root := rfl
@[simp] theorem insert_nodeW (e : Entry) : (t.insert e).nodeW = t.nodeW := rfl
@[simp] theorem insert_nodeLink (e : Entry) : (t.insert e).nodeLink = t.nodeLink := rfl

@[simp] theorem pushNode_nodes (n : Node) : (t.pushNode n).nodes = t.nodes ++ [n] := rfl
@[simp] theorem pushNode_pq (n : Node) : (t.pushNode n).pq = t.pq := rfl
@[simp] theorem pushNode_hist (n : Node) : (t.pushNode n).hist = t.hist := rfl
@[simp] theorem pushNode_loaded (n : Node) : (t.pushNode n).loaded = t.loaded := rfl
@[simp] theorem pushNode_merged (n : Node) : (t.pushNode n).merged = t.merged := rfl
@[simp] theorem pushNode_rootv (n : Node) : (t.pushNode n).rootv = t.rootv := rfl
@[simp] theorem pushNode_root (n : Node) : (t.pushNode n).root = t.root := rfl
@[simp] theorem pushNode_nodeW (n : Node) : (t.pushNode n).nodeW = t.nodeW := rfl
@[simp] theorem pushNode_nodeLink (n : Node) : (t.pushNode n).nodeLink = t.nodeLink := rfl

variable (sym : Symbol) (w : Word)

@[simp] theorem addLeaf_nodes : (t.addLeaf sym w).nodes = t.nodes ++ [.leaf sym w] := rfl
@[simp] theorem addLeaf_pq : (t.addLeaf sym w).pq = t.pq ++ [{ weight := w, handle := t.nextHandle }] := rfl
@[simp] theorem addLeaf_hist :
    (t.addLeaf sym w).hist = t.hist ++ [.ins { weight := w, handle := t.nextHandle }] := rfl
@[simp] theorem addLeaf_loaded : (t.addLeaf sym w).loaded = insertSymbol sym t.loaded := rfl
@[simp] theorem addLeaf_merged : (t.addLeaf sym w).merged = t.merged := rfl
@[simp] theorem addLeaf_rootv : (t.addLeaf sym w).rootv = false := rfl
@[simp] theorem addLeaf_root : (t.addLeaf sym w).root = 0#9 := rfl
@[simp] theorem addLeaf_nodeW : (t.addLeaf sym w).nodeW = t.nodeW := rfl
@[simp] theorem addLeaf_nodeLink : (t.addLeaf sym w).nodeLink = t.nodeLink := rfl

@[simp] theorem showNode_nodes (n : Node) : (t.showNode n).nodes = t.nodes := rfl
@[simp] theorem showNode_pq (n : Node) : (t.showNode n).pq = t.pq := rfl
@[simp] theorem showNode_hist (n : Node) : (t.showNode n).hist = t.hist := rfl
@[simp] theorem showNode_loaded (n : Node) : (t.showNode n).loaded = t.loaded := rfl
@[simp] theorem showNode_merged (n : Node) : (t.showNode n).merged = t.merged := rfl
@[simp] theorem showNode_rootv (n : Node) : (t.showNode n).rootv = t.rootv := rfl
@[simp] theorem showNode_root (n : Node) : (t.showNode n).root = t.root := rfl
@[simp] theorem showNode_nodeW (n : Node) : (t.showNode n).nodeW = nodeWeight n := rfl
@[simp] theorem showNode_nodeLink (n : Node) : (t.showNode n).nodeLink = linkWord n := rfl

@[simp] theorem markRoot_nodes : t.markRoot.nodes = t.nodes := by unfold TreeUnit.markRoot; split <;> rfl
@[simp] theorem markRoot_pq : t.markRoot.pq = t.pq := by unfold TreeUnit.markRoot; split <;> simp_all
@[simp] theorem markRoot_hist : t.markRoot.hist = t.hist := by unfold TreeUnit.markRoot; split <;> rfl
@[simp] theorem markRoot_loaded : t.markRoot.loaded = t.loaded := by unfold TreeUnit.markRoot; split <;> rfl
@[simp] theorem markRoot_merged : t.markRoot.merged = t.merged := by unfold TreeUnit.markRoot; split <;> rfl
@[simp] theorem markRoot_nodeW : t.markRoot.nodeW = t.nodeW := by unfold TreeUnit.markRoot; split <;> rfl
@[simp] theorem markRoot_nodeLink : t.markRoot.nodeLink = t.nodeLink := by unfold TreeUnit.markRoot; split <;> rfl

/-- The root marked on a container of one entry. -/
theorem markRoot_of_single {e : Entry} (h : t.pq = [e]) : t.markRoot = { t with root := e.handle, rootv := true } := by
  unfold TreeUnit.markRoot
  rw [h]

/-! The bit packer unit. -/

variable (b : BitPacker)

@[simp] theorem append_bitcnt (bits : List Bool) : (b.append bits).bitcnt = b.bitcnt + bits.length := rfl
@[simp] theorem append_rdpos (bits : List Bool) : (b.append bits).rdpos = b.rdpos := rfl
@[simp] theorem append_result (bits : List Bool) : (b.append bits).result = b.result := rfl
@[simp] theorem take_pbuf (w : Nat) : (b.take w).pbuf = b.pbuf := rfl
@[simp] theorem take_bitcnt (w : Nat) : (b.take w).bitcnt = b.bitcnt := rfl
@[simp] theorem take_rdpos (w : Nat) : (b.take w).rdpos = b.rdpos + w := rfl
@[simp] theorem rewind_pbuf : b.rewind.pbuf = b.pbuf := rfl
@[simp] theorem rewind_bitcnt : b.rewind.bitcnt = b.bitcnt := rfl
@[simp] theorem rewind_rdpos : b.rewind.rdpos = 0 := rfl
@[simp] theorem rewind_result : b.rewind.result = b.result := rfl
@[simp] theorem setLength_bitcnt (n c : Nat) : (b.setLength n c).bitcnt = n := rfl
@[simp] theorem setLength_rdpos (n c : Nat) : (b.setLength n c).rdpos = 0 := rfl
@[simp] theorem setLength_result (n c : Nat) : (b.setLength n c).result = b.result := rfl
@[simp] theorem setByte_bitcnt (i : Nat) (v : Byte) : (b.setByte i v).bitcnt = b.bitcnt := rfl
@[simp] theorem setByte_rdpos (i : Nat) (v : Byte) : (b.setByte i v).rdpos = b.rdpos := rfl
@[simp] theorem setByte_result (i : Nat) (v : Byte) : (b.setByte i v).result = b.result := rfl

end Sys2Proof.Machine
end

