-- ==== Sys2Proof/Laws/Bits.lean ====
section
/-! SUPPORT. The laws of the packed bit stream (20_memory.md R62): what setting bits does to every position, that equal
streams are equal data, and the number a bit string stands for. -/

namespace Sys2Proof.Machine

/-! ## One bit -/

theorem setByteBit_getLsbD (x : Byte) (k j : Nat) (b : Bool) (hk : k < 8) :
    (setByteBit x k b).getLsbD j = if j = k then b else x.getLsbD j := by
  unfold setByteBit
  by_cases hj : j < 8
  · cases b <;> by_cases h : j = k <;> simp [h, hk, hj] <;> omega
  · have h1 : ∀ y : Byte, y.getLsbD j = false := fun y => BitVec.getLsbD_of_ge y j (by omega)
    rw [h1, h1, if_neg (by omega)]

theorem bitIndex_lt (p : Nat) : bitIndex p < 8 := by unfold bitIndex; omega

/-- `SetPB` sets its position and no other (R62). -/
theorem streamBit_setStreamBit {m : Memory} (hm : Memory.wf m) (p q : Nat) (b : Bool) :
    streamBit (setStreamBit m p b) q = if q = p then b else streamBit m q := by
  unfold streamBit setStreamBit
  rw [Memory.read_write hm]
  by_cases hb : q / 8 = p / 8
  · rw [if_pos hb, setByteBit_getLsbD _ _ _ _ (bitIndex_lt p), hb]
    have : bitIndex q = bitIndex p ↔ q = p := by unfold bitIndex; omega
    simp [this]
  · rw [if_neg hb, if_neg (by rintro rfl; exact hb rfl)]

theorem wf_setStreamBit {m : Memory} (hm : Memory.wf m) (p : Nat) (b : Bool) : Memory.wf (setStreamBit m p b) :=
  Memory.wf_write hm _ _

/-! ## Runs of bits -/

theorem wf_writeBits {m : Memory} (hm : Memory.wf m) (p : Nat) (bits : List Bool) : Memory.wf (writeBits m p bits) := by
  induction bits generalizing m p with
  | nil => exact hm
  | cons b bits ih => exact ih (wf_setStreamBit hm p b) (p + 1)

/-- What writing a bit string does to every position. -/
theorem streamBit_writeBits {m : Memory} (hm : Memory.wf m) (p q : Nat) (bits : List Bool) :
    streamBit (writeBits m p bits) q =
      if p ≤ q ∧ q < p + bits.length then bits.getD (q - p) false else streamBit m q := by
  induction bits generalizing m p with
  | nil => simp [writeBits]; omega
  | cons b bits ih =>
    rw [writeBits, ih (wf_setStreamBit hm p b), streamBit_setStreamBit hm]
    rcases Nat.lt_trichotomy q p with h | rfl | h
    · rw [if_neg (by omega), if_neg (by omega), if_neg (by simp; omega)]
    · rw [if_neg (by omega), if_pos rfl, if_pos (by simp)]; simp
    · obtain ⟨k, rfl⟩ : ∃ k, q = p + 1 + k := ⟨q - (p + 1), by omega⟩
      have e1 : p + 1 + k - (p + 1) = k := by omega
      have e2 : p + 1 + k - p = k + 1 := by omega
      rw [e1, e2, List.getD_cons_succ]
      by_cases hk : k < bits.length
      · rw [if_pos (by omega), if_pos (by simp; omega)]
      · rw [if_neg (by omega), if_neg (by omega), if_neg (by simp; omega)]

/-- Writing a bit string touches only the bytes it covers. -/
theorem read_writeBits_other (m : Memory) (p i : Nat) (bits : List Bool)
    (h : ∀ q, p ≤ q → q < p + bits.length → q / 8 ≠ i) : Memory.read (writeBits m p bits) i = Memory.read m i := by
  induction bits generalizing m p with
  | nil => rfl
  | cons b bits ih =>
    rw [writeBits, ih _ _ (fun q h1 h2 => h q (by omega) (by simp; omega)), setStreamBit,
      Memory.read_write_other _ _ (Ne.symm (h p (by omega) (by simp)))]

/-- The cells of a written stream: the old ones, or bytes the bits fall in. -/
theorem mem_writeBits {m : Memory} {p : Nat} {bits : List Bool} {c : Host.Cell} (h : c ∈ writeBits m p bits) :
    c ∈ m ∨ ∃ q, p ≤ q ∧ q < p + bits.length ∧ c.1 = q / 8 := by
  induction bits generalizing m p with
  | nil => exact Or.inl h
  | cons b bits ih =>
    rcases ih h with h | ⟨q, h1, h2, h3⟩
    · rcases Memory.mem_write h with h | rfl
      · exact Or.inl h
      · exact Or.inr ⟨p, le_refl p, by simp, rfl⟩
    · exact Or.inr ⟨q, by omega, by simp; omega, h3⟩

theorem writeBits_append (m : Memory) (p : Nat) (xs ys : List Bool) :
    writeBits m p (xs ++ ys) = writeBits (writeBits m p xs) (p + xs.length) ys := by
  induction xs generalizing m p with
  | nil => rfl
  | cons b xs ih => simp only [List.cons_append, writeBits, ih, List.length_cons]; congr 1; omega

theorem getD_replicate_false (n k : Nat) : (List.replicate n false).getD k false = false := by
  simp [List.getD, List.getElem?_replicate]; split <;> simp

theorem wf_padFinalByte {m : Memory} (hm : Memory.wf m) (e : Nat) : Memory.wf (padFinalByte m e) := by
  unfold padFinalByte; split
  · exact hm
  · exact wf_writeBits hm _ _

/-- The first position after the byte that holds position e - 1. -/
def byteEnd (e : Nat) : Nat := (e + 7) / 8 * 8

/-- What padding the final byte does to every position. -/
theorem streamBit_padFinalByte {m : Memory} (hm : Memory.wf m) (e q : Nat) :
    streamBit (padFinalByte m e) q = if e ≤ q ∧ q < byteEnd e then false else streamBit m q := by
  unfold padFinalByte byteEnd
  split
  · rw [if_neg (by omega)]
  · rw [streamBit_writeBits hm, List.length_replicate, getD_replicate_false]
    congr 1
    simp only [eq_iff_iff]
    omega

/-! ## Append -/

theorem wf_append {b : BitPacker} (hm : Memory.wf b.pbuf) (bits : List Bool) : Memory.wf (b.append bits).pbuf :=
  wf_padFinalByte (wf_writeBits hm _ _) _

/-- What appending a bit string does to every position: old bits, the string, zeros to the end of the final byte, and
old bits after it (42_bit_packer.md R141). -/
theorem streamBit_append {b : BitPacker} (hm : Memory.wf b.pbuf) (bits : List Bool) (q : Nat) :
    streamBit (b.append bits).pbuf q =
      if q < b.bitcnt then streamBit b.pbuf q
      else if q < b.bitcnt + bits.length then bits.getD (q - b.bitcnt) false
      else if q < byteEnd (b.bitcnt + bits.length) then false
      else streamBit b.pbuf q := by
  simp only [BitPacker.append]
  rw [streamBit_padFinalByte (wf_writeBits hm _ _), streamBit_writeBits hm]
  split_ifs <;> first | rfl | (exfalso; omega)

/-- The bytes an append leaves alone. -/
theorem read_append_other (b : BitPacker) (bits : List Bool) (i : Nat)
    (h : i < b.bitcnt / 8 ∨ (b.bitcnt + bits.length + 7) / 8 ≤ i) :
    Memory.read (b.append bits).pbuf i = Memory.read b.pbuf i := by
  simp only [BitPacker.append, padFinalByte]
  split
  · exact read_writeBits_other _ _ _ _ (fun q h1 h2 => by omega)
  · rw [read_writeBits_other _ _ _ _ (fun q h1 h2 => by simp at h2; omega),
      read_writeBits_other _ _ _ _ (fun q h1 h2 => by omega)]

/-- The cells after an append lie below the byte end of the new count. -/
theorem mem_append {b : BitPacker} {bits : List Bool} {c : Host.Cell} (h : c ∈ (b.append bits).pbuf) :
    c ∈ b.pbuf ∨ c.1 < (b.bitcnt + bits.length + 7) / 8 := by
  simp only [BitPacker.append, padFinalByte] at h
  split at h
  · rcases mem_writeBits h with h | ⟨q, h1, h2, h3⟩
    · exact Or.inl h
    · right; omega
  · rcases mem_writeBits h with h | ⟨q, h1, h2, h3⟩
    · rcases mem_writeBits h with h | ⟨q, h1, h2, h3⟩
      · exact Or.inl h
      · right; omega
    · right; simp at h2; omega

/-! ## The stream determines the buffer -/

/-- Two canonical buffers with the same stream are the same data. -/
theorem ext_of_streamBit {m n : Memory} (hm : Memory.wf m) (hn : Memory.wf n)
    (h : ∀ q, streamBit m q = streamBit n q) : m = n := by
  refine Memory.ext_of_read hm hn (fun i => ?_)
  refine BitVec.eq_of_getLsbD_eq (fun k hk => ?_)
  have := h (8 * i + (7 - k))
  unfold streamBit bitIndex at this
  rwa [show (8 * i + (7 - k)) / 8 = i by omega, show 7 - (8 * i + (7 - k)) % 8 = k by omega] at this

/-! ## Bit strings and numbers -/

theorem bitsValue_foldl (bits : List Bool) (r : Nat) :
    bits.foldl (fun r b => 2 * r + b.toNat) r = r * 2 ^ bits.length + bitsValue bits := by
  unfold bitsValue
  induction bits generalizing r with
  | nil => simp
  | cons b bits ih =>
    simp only [List.foldl_cons, List.length_cons]
    rw [ih, ih (2 * 0 + b.toNat), pow_succ]
    ring

@[simp] theorem bitsValue_nil : bitsValue [] = 0 := rfl

theorem bitsValue_cons (b : Bool) (bits : List Bool) :
    bitsValue (b :: bits) = b.toNat * 2 ^ bits.length + bitsValue bits := by
  have := bitsValue_foldl bits (2 * 0 + b.toNat)
  simpa [bitsValue] using this

theorem bitsValue_append (xs ys : List Bool) :
    bitsValue (xs ++ ys) = bitsValue xs * 2 ^ ys.length + bitsValue ys := by
  rw [bitsValue, List.foldl_append, bitsValue_foldl]
  rfl

theorem bitsValue_lt (bits : List Bool) : bitsValue bits < 2 ^ bits.length := by
  induction bits with
  | nil => simp
  | cons b bits ih =>
    rw [bitsValue_cons, List.length_cons, pow_succ]
    have : b.toNat ≤ 1 := by cases b <;> simp
    nlinarith [Nat.two_pow_pos bits.length]

/-- Bit k of the number is the bit k places before the string's end. -/
theorem bitsValue_testBit (bits : List Bool) (k : Nat) :
    (bitsValue bits).testBit k = if k < bits.length then bits.getD (bits.length - 1 - k) false else false := by
  induction bits with
  | nil => simp
  | cons b bits ih =>
    have hlt := bitsValue_lt bits
    rw [bitsValue_cons, Nat.mul_comm, Nat.testBit_two_pow_mul_add _ hlt]
    rcases Nat.lt_trichotomy k bits.length with h | rfl | h
    · rw [if_pos h, if_pos (by simp; omega), ih, if_pos h]
      rw [show (b :: bits).length - 1 - k = (bits.length - 1 - k) + 1 by simp; omega, List.getD_cons_succ]
    · rw [if_neg (by omega), if_pos (by simp)]
      cases b <;> simp
    · rw [if_neg (by omega), if_neg (by simp; omega)]
      obtain ⟨d, hd⟩ : ∃ d, k - bits.length = d + 1 := ⟨k - bits.length - 1, by omega⟩
      rw [hd]
      cases b <;> simp [Nat.testBit_succ]

@[simp] theorem fieldBits_length (v : Word) (w : Nat) : (fieldBits v w).length = w := by simp [fieldBits]

theorem fieldBits_getD (v : Word) {w i : Nat} (h : i < w) : (fieldBits v w).getD i false = v.getLsbD (w - 1 - i) := by
  simp [fieldBits, List.getD, h]

/-- A field's bits stand for `v mod 2^w`. -/
theorem bitsValue_fieldBits (v : Word) (w : Nat) : bitsValue (fieldBits v w) = v.toNat % 2 ^ w := by
  refine Nat.eq_of_testBit_eq (fun k => ?_)
  rw [bitsValue_testBit, Nat.testBit_mod_two_pow, fieldBits_length]
  by_cases h : k < w
  · rw [if_pos h, fieldBits_getD v (by omega), show w - 1 - (w - 1 - k) = k by omega]
    simp [h, BitVec.getLsbD]
  · simp [h]

@[simp] theorem readBits_length (m : Memory) (p w : Nat) : (readBits m p w).length = w := by simp [readBits]

theorem readBits_getD (m : Memory) (p : Nat) {w i : Nat} (h : i < w) :
    (readBits m p w).getD i false = streamBit m (p + i) := by
  simp [readBits, List.getD, h]

/-- RESULT after a read of w ≤ 32 bits, bit by bit (R142): the first bit read is bit w - 1. -/
theorem take_result_getLsbD (b : BitPacker) {w : Nat} (hw : w ≤ 32) (k : Nat) :
    (b.take w).result.getLsbD k = if k < w then streamBit b.pbuf (b.rdpos + (w - 1 - k)) else false := by
  simp only [BitPacker.take, BitVec.getLsbD_ofNat]
  rw [bitsValue_testBit, readBits_length]
  by_cases h : k < w
  · rw [if_pos h, if_pos h, readBits_getD _ _ (by omega)]
    simp; omega
  · simp [h]

end Sys2Proof.Machine
end

