-- ==== Sys2Proof/Laws/Container.lean ====
section
/-! SUPPORT. The laws of the ordered container (41_tree_builder.md R110 to R112) and of the merge step and loop built on
it (R115, R118): one lemma says everything each of them can do. -/

namespace Sys2Proof.Machine

/-! ## The minimum and the candidates -/

theorem minWeight_spec {pq : List Entry} (h : pq ≠ []) :
    (∃ e ∈ pq, e.weight.toNat = minWeight pq) ∧ ∀ e ∈ pq, minWeight pq ≤ e.weight.toNat := by
  unfold minWeight
  cases hm : (pq.map (fun e => e.weight.toNat)).min? with
  | none => simp [List.min?_eq_none_iff] at hm; exact absurd hm h
  | some m =>
    obtain ⟨h1, h2⟩ := List.min?_eq_some_iff.1 hm
    simp only [Option.getD_some]
    refine ⟨by simpa using h1, fun e he => h2 _ (List.mem_map.2 ⟨e, he, rfl⟩)⟩

theorem minWeight_eq {pq : List Entry} {e : Entry} (he : e ∈ pq) (hle : ∀ x ∈ pq, e.weight.toNat ≤ x.weight.toNat) :
    minWeight pq = e.weight.toNat := by
  obtain ⟨⟨x, hx, hxm⟩, hmin⟩ := minWeight_spec (List.ne_nil_of_mem he)
  have := hle x hx
  have := hmin e he
  omega

theorem mem_candidates {pq : List Entry} {e : Entry} :
    e ∈ candidates pq ↔ e ∈ pq ∧ e.weight.toNat = minWeight pq := by simp [candidates]

theorem candidates_ne_nil {pq : List Entry} (h : pq ≠ []) : candidates pq ≠ [] := by
  obtain ⟨⟨e, he, hm⟩, -⟩ := minWeight_spec h
  exact List.ne_nil_of_mem (mem_candidates.2 ⟨he, hm⟩)

/-- `0 ≤ k < |C|` (R112). -/
theorem tieSelect_lt (hist : List PQOp) {cands : List Entry} (h : cands ≠ []) :
    tieSelect hist cands < cands.length := by
  unfold tieSelect
  split
  · simp
  · exact Nat.mod_lt _ (List.length_pos_iff.2 h)

/-- "When |C| = 1 it must return 0" (R112). -/
theorem tieSelect_single (hist : List PQOp) (e : Entry) : tieSelect hist [e] = 0 := rfl

/-! ## Extraction -/

/-- Everything an extraction can do (R112): on a non-empty container it answers a minimum-weight entry, takes that entry
out and records it, and changes nothing else. -/
theorem extractMin_spec (t : TreeUnit) (h : t.pq ≠ []) :
    ∃ e, t.extractMin = some (e, { t with pq := t.pq.erase e, hist := t.hist ++ [.ext e] }) ∧
      e ∈ t.pq ∧ (∀ x ∈ t.pq, e.weight.toNat ≤ x.weight.toNat) ∧
      (candidates t.pq)[tieSelect t.hist (candidates t.pq)]? = some e := by
  have hlt := tieSelect_lt t.hist (candidates_ne_nil h)
  refine ⟨(candidates t.pq)[tieSelect t.hist (candidates t.pq)], ?_, ?_, ?_, ?_⟩
  · simp [TreeUnit.extractMin, List.getElem?_eq_getElem hlt]
  · exact (mem_candidates.1 (List.getElem_mem hlt)).1
  · intro x hx
    rw [(mem_candidates.1 (List.getElem_mem hlt)).2]
    exact (minWeight_spec h).2 x hx
  · simp [List.getElem?_eq_getElem hlt]

theorem extractMin_nil (t : TreeUnit) (h : t.pq = []) : t.extractMin = none := by
  simp [TreeUnit.extractMin, h, candidates]

/-! ## The merge step -/

/-- What a merge of entries a and b makes of a unit (R115). -/
def mergeOf (t : TreeUnit) (a b : Entry) : TreeUnit :=
  { t with
    nodes := t.nodes ++ [.internal (BitVec.ofNat 32 (a.weight.toNat + b.weight.toNat)) a.handle b.handle],
    pq := (t.pq.erase a).erase b ++
      [{ weight := BitVec.ofNat 32 (a.weight.toNat + b.weight.toNat), handle := t.nextHandle }],
    hist := t.hist ++ [.ext a, .ext b,
      .ins { weight := BitVec.ofNat 32 (a.weight.toNat + b.weight.toNat), handle := t.nextHandle }],
    merged := true }

theorem two_le_ne_nil {l : List Entry} (h : 2 ≤ l.length) : l ≠ [] := by rintro rfl; simp at h

theorem erase_ne_nil {l : List Entry} {a : Entry} (h : 2 ≤ l.length) (ha : a ∈ l) : l.erase a ≠ [] := by
  have := List.length_erase_of_mem ha
  intro hnil
  rw [hnil] at this
  simp at this
  omega

/-- The two entries a merge step takes are the first and the second extracted (R115). -/
theorem mergeStep_extracts (t : TreeUnit) (h : 2 ≤ t.pq.length) :
    ∃ a b u v, t.extractMin = some (a, u) ∧ u.extractMin = some (b, v) ∧ t.mergeStep = mergeOf t a b ∧ a ∈ t.pq ∧
      b ∈ t.pq.erase a ∧ (∀ x ∈ t.pq, a.weight.toNat ≤ x.weight.toNat) ∧
      (∀ x ∈ t.pq.erase a, b.weight.toNat ≤ x.weight.toNat) := by
  obtain ⟨a, ha, hmem, hmin, -⟩ := extractMin_spec t (two_le_ne_nil h)
  obtain ⟨b, hb, hmem2, hmin2, -⟩ :=
    extractMin_spec { t with pq := t.pq.erase a, hist := t.hist ++ [.ext a] } (erase_ne_nil h hmem)
  refine ⟨a, b, _, _, ha, hb, ?_, hmem, hmem2, hmin, hmin2⟩
  simp only [TreeUnit.mergeStep, ha, hb]
  simp [mergeOf, TreeUnit.insert, TreeUnit.pushNode, TreeUnit.nextHandle, TreeUnit.ncount]

/-- Everything a merge step can do on two or more entries (R115): a is a lightest entry, b a lightest of the rest. -/
theorem mergeStep_spec (t : TreeUnit) (h : 2 ≤ t.pq.length) :
    ∃ a b, t.mergeStep = mergeOf t a b ∧ a ∈ t.pq ∧ b ∈ t.pq.erase a ∧
      (∀ x ∈ t.pq, a.weight.toNat ≤ x.weight.toNat) ∧ (∀ x ∈ t.pq.erase a, b.weight.toNat ≤ x.weight.toNat) := by
  obtain ⟨a, b, -, -, -, -, h1⟩ := mergeStep_extracts t h
  exact ⟨a, b, h1⟩

theorem mergeStep_pq_length (t : TreeUnit) (h : 2 ≤ t.pq.length) : t.mergeStep.pq.length = t.pq.length - 1 := by
  obtain ⟨a, b, he, ha, hb, -, -⟩ := mergeStep_spec t h
  rw [he]
  have h1 := List.length_erase_of_mem ha
  have h2 := List.length_erase_of_mem hb
  simp only [mergeOf, List.length_append, List.length_singleton]
  omega

/-! ## Sums -/

theorem totalWeight_append (l m : List Entry) : totalWeight (l ++ m) = totalWeight l + totalWeight m := by
  simp [totalWeight]

@[simp] theorem totalWeight_nil : totalWeight [] = 0 := rfl

@[simp] theorem totalWeight_cons (e : Entry) (l : List Entry) :
    totalWeight (e :: l) = e.weight.toNat + totalWeight l := by simp [totalWeight]

theorem totalWeight_erase {l : List Entry} {a : Entry} (h : a ∈ l) :
    totalWeight l = a.weight.toNat + totalWeight (l.erase a) := by
  have := (List.perm_cons_erase h).map (fun e : Entry => e.weight.toNat)
  simpa [totalWeight] using this.sum_eq

/-- m1 + m2 = a.w + b.w whichever entries are extracted (R116). -/
theorem twoLowestSum_eq {pq : List Entry} {a b : Entry} (ha : a ∈ pq) (hb : b ∈ pq.erase a)
    (hmin : ∀ x ∈ pq, a.weight.toNat ≤ x.weight.toNat) (hmin2 : ∀ x ∈ pq.erase a, b.weight.toNat ≤ x.weight.toNat) :
    twoLowestSum pq = a.weight.toNat + b.weight.toNat := by
  unfold twoLowestSum
  have hm := minWeight_eq ha hmin
  rw [hm]
  congr 1
  -- the entry R116 removes has a's weight, so the weights left are the same
  obtain ⟨y, l1, l2, -, hy, hpq, hE⟩ :=
    List.exists_of_eraseP (p := fun e : Entry => e.weight.toNat == a.weight.toNat) ha (by simp)
  simp only [beq_iff_eq] at hy
  rw [hE]
  have hperm : List.Perm ((pq.erase a).map (fun e => e.weight.toNat)) ((l1 ++ l2).map (fun e => e.weight.toNat)) := by
    have h1 : List.Perm (a.weight.toNat :: (pq.erase a).map (fun e => e.weight.toNat))
        (pq.map (fun e => e.weight.toNat)) := by
      exact ((List.perm_cons_erase ha).map (fun e : Entry => e.weight.toNat)).symm
    have h2 : List.Perm (pq.map (fun e => e.weight.toNat))
        (a.weight.toNat :: (l1 ++ l2).map (fun e => e.weight.toNat)) := by
      rw [hpq]
      rw [← hy]
      exact (List.perm_middle (a := y) (l₁ := l1) (l₂ := l2)).map (fun e : Entry => e.weight.toNat)
    exact (List.perm_cons _).1 (h1.trans h2)
  have hmem : ∀ n, n ∈ (pq.erase a).map (fun e => e.weight.toNat) ↔ n ∈ (l1 ++ l2).map (fun e => e.weight.toNat) :=
    fun n => hperm.mem_iff
  obtain ⟨x, hx, hxw⟩ := List.mem_map.1 ((hmem b.weight.toNat).1 (List.mem_map.2 ⟨b, hb, rfl⟩))
  rw [minWeight_eq hx]
  · exact hxw
  · intro z hz
    obtain ⟨z', hz', hzw⟩ := List.mem_map.1 ((hmem z.weight.toNat).2 (List.mem_map.2 ⟨z, hz, rfl⟩))
    have := hmin2 z' hz'
    omega

/-- A merge whose sum fits keeps the container's total (R118: "the last merge's weight equals the total"). -/
theorem mergeOf_total {t : TreeUnit} {a b : Entry} (ha : a ∈ t.pq) (hb : b ∈ t.pq.erase a)
    (hfit : a.weight.toNat + b.weight.toNat ≤ maxWord) : totalWeight (mergeOf t a b).pq = totalWeight t.pq := by
  rw [totalWeight_erase ha, totalWeight_erase hb]
  simp only [mergeOf, totalWeight_append, totalWeight_cons, totalWeight_nil, BitVec.toNat_ofNat]
  rw [Nat.mod_eq_of_lt (by unfold maxWord at hfit; omega)]
  omega

theorem pair_le_total {pq : List Entry} {a b : Entry} (ha : a ∈ pq) (hb : b ∈ pq.erase a) :
    a.weight.toNat + b.weight.toNat ≤ totalWeight pq := by
  rw [totalWeight_erase ha, totalWeight_erase hb]; omega

/-! ## The merge loop -/

/-- The loop's rule: a property that every merge of two or more entries keeps, while the total fits, holds when the
loop ends, and then at most one entry is left. -/
theorem mergeLoop_induction {P : TreeUnit → Prop}
    (hstep : ∀ t a b, P t → a ∈ t.pq → b ∈ t.pq.erase a →
      (∀ x ∈ t.pq, a.weight.toNat ≤ x.weight.toNat) → (∀ x ∈ t.pq.erase a, b.weight.toNat ≤ x.weight.toNat) →
      a.weight.toNat + b.weight.toNat ≤ maxWord → P (mergeOf t a b)) :
    ∀ (fuel : Nat) (t : TreeUnit), P t → totalWeight t.pq ≤ maxWord → P (TreeUnit.mergeLoop fuel t) := by
  intro fuel
  induction fuel with
  | zero => intro t h _; exact h
  | succ n ih =>
    intro t h htot
    unfold TreeUnit.mergeLoop
    split
    next h2 =>
      obtain ⟨a, b, he, ha, hb, hmin, hmin2⟩ := mergeStep_spec t h2
      have hfit := (pair_le_total ha hb).trans htot
      rw [he]
      exact ih _ (hstep t a b h ha hb hmin hmin2 hfit) (by rw [mergeOf_total ha hb hfit]; exact htot)
    next => exact h

/-- The loop ends with one entry (R118). -/
theorem mergeLoop_length (fuel : Nat) (t : TreeUnit) (h : t.pq ≠ []) (hf : t.pq.length ≤ fuel + 1) :
    (TreeUnit.mergeLoop fuel t).pq.length = 1 := by
  induction fuel generalizing t with
  | zero =>
    have := List.length_pos_iff.2 h
    simp only [TreeUnit.mergeLoop]; omega
  | succ n ih =>
    unfold TreeUnit.mergeLoop
    split
    next h2 =>
      have hl := mergeStep_pq_length t h2
      exact ih _ (by intro hnil; rw [hnil] at hl; simp at hl; omega) (by omega)
    next h2 => have := List.length_pos_iff.2 h; omega

/-- One more unit of fuel than the loop needs changes nothing. -/
theorem mergeLoop_fuel (fuel k : Nat) (t : TreeUnit) (hf : t.pq.length ≤ fuel + 1) :
    TreeUnit.mergeLoop (fuel + k) t = TreeUnit.mergeLoop fuel t := by
  induction fuel generalizing t with
  | zero =>
    cases k with
    | zero => rfl
    | succ k => simp only [TreeUnit.mergeLoop]; rw [if_neg (by omega)]
  | succ n ih =>
    rw [show n + 1 + k = (n + k) + 1 by omega]
    unfold TreeUnit.mergeLoop
    split
    next h2 => exact ih _ (by rw [mergeStep_pq_length t h2]; omega)
    next => rfl

/-- A build does one merge step, then is a build of what is left (R118: "both perform the same sequence"). -/
theorem build_mergeStep (t : TreeUnit) (h : 2 ≤ t.pq.length) : t.mergeStep.build = t.build := by
  unfold TreeUnit.build
  have hl := mergeStep_pq_length t h
  obtain ⟨n, hn⟩ : ∃ n, t.pq.length = n + 1 := ⟨t.pq.length - 1, by omega⟩
  rw [hl, hn, show TreeUnit.mergeLoop (n + 1) t = TreeUnit.mergeLoop n t.mergeStep by
    conv_lhs => unfold TreeUnit.mergeLoop
    rw [if_pos h]]
  rfl

/-- A build of one entry only marks the root (R119). -/
theorem build_single (t : TreeUnit) {e : Entry} (h : t.pq = [e]) : t.build = t.markRoot := by
  unfold TreeUnit.build
  rw [h]
  simp [TreeUnit.mergeLoop, h]

end Sys2Proof.Machine
end

