-- ==== Sys2Proof/Laws/Decode.lean ====
section
/-! SUPPORT. The fields of an encoded command word, and what decoding can answer (30_encoding.md R80 to R86). -/

namespace Sys2Proof

/-! ## The fields of an encoded word -/

theorem opField_encodeZ (op : BitVec 8) : opField (encodeZ op) = op := by
  refine BitVec.eq_of_getLsbD_eq (fun k hk => ?_)
  simp only [opField, encodeZ]
  interval_cases k <;> simp

theorem opField_encodeS (op : BitVec 8) (sym : Symbol) : opField (encodeS op sym) = op := by
  refine BitVec.eq_of_getLsbD_eq (fun k hk => ?_)
  simp only [opField, encodeS]
  interval_cases k <;> simp

theorem symField_encodeS (op : BitVec 8) (sym : Symbol) : symField (encodeS op sym) = sym := by
  refine BitVec.eq_of_getLsbD_eq (fun k hk => ?_)
  simp only [symField, encodeS]
  interval_cases k <;> simp

theorem reserved_encodeS (op : BitVec 8) (sym : Symbol) : encodeS op sym &&& reservedMask .s = 0#32 := by
  refine BitVec.eq_of_getLsbD_eq (fun k hk => ?_)
  simp only [encodeS, reservedMask]
  interval_cases k <;> simp

theorem testBit_of_lt {n k : Nat} {b : Nat} (h : n < 2 ^ b) (hk : b ≤ k) : n.testBit k = false :=
  Nat.testBit_lt_two_pow (h.trans_le (Nat.pow_le_pow_right (by decide) hk))

theorem ofNat_getElem {w n k : Nat} (h : k < w) : (BitVec.ofNat w n)[k] = n.testBit k := by
  rw [← BitVec.getLsbD_eq_getElem, BitVec.getLsbD_ofNat]
  simp [h]

theorem opField_encodeLow (op : BitVec 8) {n : Nat} (h : n < 2 ^ 9) : opField (encodeLow op n) = op := by
  refine BitVec.eq_of_getLsbD_eq (fun k hk => ?_)
  simp only [opField, encodeLow]
  interval_cases k <;> simp [ofNat_getElem, testBit_of_lt h]

theorem handleField_encodeLow (op : BitVec 8) {n : Nat} (h : n < 2 ^ 9) : handleField (encodeLow op n) = n := by
  have : (encodeLow op n).extractLsb' 0 9 = BitVec.ofNat 9 n := by
    refine BitVec.eq_of_getLsbD_eq (fun k hk => ?_)
    simp only [encodeLow]
    interval_cases k <;> simp [ofNat_getElem]
  rw [handleField, this, BitVec.toNat_ofNat, Nat.mod_eq_of_lt h]

theorem widthField_encodeLow (op : BitVec 8) {n : Nat} (h : n < 2 ^ 6) : widthField (encodeLow op n) = n := by
  have : (encodeLow op n).extractLsb' 0 6 = BitVec.ofNat 6 n := by
    refine BitVec.eq_of_getLsbD_eq (fun k hk => ?_)
    simp only [encodeLow]
    interval_cases k <;> simp [ofNat_getElem]
  rw [widthField, this, BitVec.toNat_ofNat, Nat.mod_eq_of_lt h]

theorem reserved_encodeLow_h (op : BitVec 8) {n : Nat} (h : n < 2 ^ 9) :
    encodeLow op n &&& reservedMask .h = 0#32 := by
  refine BitVec.eq_of_getLsbD_eq (fun k hk => ?_)
  simp only [encodeLow, reservedMask]
  interval_cases k <;> simp [ofNat_getElem, testBit_of_lt h] <;> exact fun _ => by decide

theorem reserved_encodeLow_w (op : BitVec 8) {n : Nat} (h : n < 2 ^ 6) :
    encodeLow op n &&& reservedMask .w = 0#32 := by
  refine BitVec.eq_of_getLsbD_eq (fun k hk => ?_)
  simp only [encodeLow, reservedMask]
  interval_cases k <;> simp [ofNat_getElem, testBit_of_lt h] <;> exact fun _ => by decide

/-- An operand that fits its field fits the 9 bits the widest field has. -/
theorem lt_of_wellFormed_h {h : Nat} (hw : (Instr.tbRead h).wellFormed = true) : h < 2 ^ 9 := by
  simp [Instr.wellFormed] at hw; omega

theorem lt_of_wellFormed_put {w : Nat} (hw : (Instr.bpPut w).wellFormed = true) : w < 2 ^ 6 := by
  simp [Instr.wellFormed] at hw; omega

theorem lt_of_wellFormed_get {w : Nat} (hw : (Instr.bpGet w).wellFormed = true) : w < 2 ^ 6 := by
  simp [Instr.wellFormed] at hw; omega

/-! ## The words of each format -/

/-- A word of format Z is its opcode alone. -/
theorem word_of_z {c : Word} (h : c &&& reservedMask .z = 0#32) : c = encodeZ (opField c) := by
  refine BitVec.eq_of_getLsbD_eq (fun k hk => ?_)
  have hb := congrArg (fun x : Word => x.getLsbD k) h
  simp only [encodeZ, opField, reservedMask] at hb ⊢
  interval_cases k <;> simp_all

/-- A word of format S is its opcode and its symbol. -/
theorem word_of_s {c : Word} (h : c &&& reservedMask .s = 0#32) : c = encodeS (opField c) (symField c) := by
  refine BitVec.eq_of_getLsbD_eq (fun k hk => ?_)
  have hb := congrArg (fun x : Word => x.getLsbD k) h
  simp only [encodeS, opField, symField, reservedMask] at hb ⊢
  interval_cases k <;> simp_all

/-- A word of format H is its opcode and its handle. -/
theorem word_of_h {c : Word} (h : c &&& reservedMask .h = 0#32) : c = encodeLow (opField c) (handleField c) := by
  refine BitVec.eq_of_getLsbD_eq (fun k hk => ?_)
  have hb := congrArg (fun x : Word => x.getLsbD k) h
  simp only [encodeLow, opField, handleField, reservedMask, BitVec.ofNat_toNat] at hb ⊢
  interval_cases k <;> simp_all

/-- A word of format W is its opcode and its width. -/
theorem word_of_w {c : Word} (h : c &&& reservedMask .w = 0#32) : c = encodeLow (opField c) (widthField c) := by
  refine BitVec.eq_of_getLsbD_eq (fun k hk => ?_)
  have hb := congrArg (fun x : Word => x.getLsbD k) h
  simp only [encodeLow, opField, widthField, reservedMask, BitVec.ofNat_toNat] at hb ⊢
  interval_cases k <;> simp_all

/-! ## What decoding answers -/

/-- Everything a successful decode says: the word's opcode is a row's, its reserved bits are 0, and the command is the
row's. -/
theorem decode_ok {c : Word} {i : Instr} (h : decode c = .ok i) :
    ∃ r ∈ opcodeMap, r.op = opField c ∧ c &&& reservedMask r.format = 0#32 ∧ i = r.build c := by
  unfold decode at h
  split at h
  · simp at h
  next r hr =>
    split at h
    next hz =>
      refine ⟨r, List.mem_of_find?_eq_some hr, by simpa using List.find?_some hr, hz, ?_⟩
      simpa using h.symm
    next => simp at h

/-- A rejected word: no row has its opcode, or the row's reserved bits are not all 0. -/
theorem decode_error {c : Word} {e : Reject} (h : decode c = .error e) :
    (e = .reservedOp ∧ ∀ r ∈ opcodeMap, r.op ≠ opField c) ∨
      (e = .reservedBits ∧ ∃ r ∈ opcodeMap, r.op = opField c ∧ c &&& reservedMask r.format ≠ 0#32) := by
  unfold decode at h
  split at h
  next hn =>
    refine Or.inl ⟨by simpa using h.symm, fun r hr => ?_⟩
    have := List.find?_eq_none.1 hn r hr
    simpa using this
  next r hr =>
    split at h
    next => simp at h
    next hz =>
      exact Or.inr ⟨by simpa using h.symm, r, List.mem_of_find?_eq_some hr, by simpa using List.find?_some hr, hz⟩

/-- A word whose opcode is a row's decodes by that row. -/
theorem decode_of_row {c : Word} {r : OpRow} (h : opcodeMap.find? (fun r => r.op == opField c) = some r) :
    decode c = if c &&& reservedMask r.format = 0#32 then .ok (r.build c) else .error .reservedBits := by
  unfold decode; rw [h]

/-- Each row is the one found for its own opcode. -/
theorem find?_of_row : ∀ r ∈ opcodeMap, opcodeMap.find? (fun x => x.op == r.op) = some r := by
  intro r hr
  simp only [opcodeMap, List.mem_cons, List.not_mem_nil, or_false] at hr
  rcases hr with rfl | rfl | rfl | rfl | rfl | rfl | rfl | rfl | rfl | rfl | rfl | rfl <;> rfl

/-- A row's opcode with no reserved bit set decodes to the row's command. -/
theorem decode_row_ok {r : OpRow} (hr : r ∈ opcodeMap) {c : Word} (hop : opField c = r.op)
    (hm : c &&& reservedMask r.format = 0#32) : decode c = .ok (r.build c) := by
  rw [decode_of_row (r := r) (by rw [hop]; exact find?_of_row r hr), if_pos hm]

/-- A row's opcode with a reserved bit set is rejected. -/
theorem decode_row_error {r : OpRow} (hr : r ∈ opcodeMap) {c : Word} (hop : opField c = r.op)
    (hm : c &&& reservedMask r.format ≠ 0#32) : decode c = .error .reservedBits := by
  rw [decode_of_row (r := r) (by rw [hop]; exact find?_of_row r hr), if_neg hm]

/-- An opcode of no row is rejected. -/
theorem decode_no_row {c : Word} (h : ∀ r ∈ opcodeMap, r.op ≠ opField c) : decode c = .error .reservedOp := by
  unfold decode
  rw [List.find?_eq_none.2 (fun r hr => by simpa using h r hr)]

end Sys2Proof
end

