-- ==== Sys2Proof/Laws/Exec.lean ====
section
/-! SUPPORT. What a command can do, said once: raise an error, which changes the error record only, or take its
effect. The later laws cite these lemmas and unfold no meaning again. -/

namespace Sys2Proof.Machine

@[simp] theorem legalWidth_eq_true {w : Nat} : legalWidth w = true ↔ 1 ≤ w ∧ w ≤ 32 := by
  unfold legalWidth Config.maxField
  rw [Bool.and_eq_true, decide_eq_true_eq, decide_eq_true_eq]

theorem legalWidth_eq_false {w : Nat} : legalWidth w = false ↔ w = 0 ∨ 32 < w := by
  rw [← Bool.not_eq_true, legalWidth_eq_true]; omega

/-- The effect of a command that raises no error, as a state. -/
def effect (i : Instr) (s : State) : State :=
  match i with
  | .nop => s
  | .clrerr => s.withErrcode 0#32
  | .tbClear => s.withTb TreeUnit.empty
  | .tbLeaf sym => s.withTb (s.tb.addLeaf sym s.data)
  | .tbMerge =>
    if s.tb.pq.length = 1 then s.withTb s.tb.markRoot
    else if s.tb.mergeStep.pq.length = 1 then s.withTb s.tb.mergeStep.markRoot
    else s.withTb s.tb.mergeStep
  | .tbBuild => s.withTb s.tb.build
  | .tbRead h =>
    match s.tb.nodes[h]? with
    | none => s
    | some n => s.withTb (s.tb.showNode n)
  | .bpClear => s.withBp BitPacker.empty
  | .bpPut w => s.withBp (s.bp.append (fieldBits s.data w))
  | .bpGet w => s.withBp (s.bp.take w)
  | .bpRewind => s.withBp s.bp.rewind
  | .bpSetlen => s.withBp (s.bp.setLength s.data.toNat s.params.capacityBits)

theorem toNat_eq_zero_iff {v : Word} : v.toNat = 0 ↔ v = 0#32 := by
  constructor
  · intro h; exact BitVec.eq_of_toNat_eq (by simpa using h)
  · rintro rfl; rfl

/-- Every command answers a next state: its error recorded, or its effect. -/
theorem exec_eq (i : Instr) (s : State) :
    exec i s = match firstError i s with
      | some e => raise (opcode i) e s
      | none => .next (effect i s) := by
  cases i with
  | nop => rfl
  | clrerr => rfl
  | tbClear => rfl
  | tbLeaf sym =>
    simp only [exec, execTbLeaf, firstError, effect, dataOperand, toNat_eq_zero_iff]
    by_cases h1 : s.data = 0#32
    · simp [h1]
    · by_cases h2 : s.tb.merged = true
      · simp [h1, h2]
      · by_cases h3 : sym ∈ s.tb.loaded <;> simp [h1, h2, h3]
  | tbMerge =>
    simp only [exec, execTbMerge, firstError, effect, List.length_eq_zero_iff, gt_iff_lt]
    by_cases h0 : s.tb.pq = []
    · simp [h0]
    · have hpos := List.length_pos_iff.2 h0
      by_cases h1 : s.tb.pq.length = 1
      · simp [h0, h1]
      · by_cases h2 : maxWord < twoLowestSum s.tb.pq
        · simp [h0, h1, h2, show 2 ≤ s.tb.pq.length by omega]
        · by_cases h3 : s.tb.mergeStep.pq.length = 1 <;> simp [h0, h1, h2, h3]
  | tbBuild =>
    simp only [exec, execTbBuild, firstError, effect, List.length_eq_zero_iff, gt_iff_lt]
    by_cases h0 : s.tb.pq = []
    · simp [h0]
    · by_cases h1 : maxWord < totalWeight s.tb.pq <;> simp [h0, h1]
  | tbRead h =>
    simp only [exec, execTbRead, firstError, effect]
    by_cases hlt : s.tb.nodes.length ≤ h
    · rw [if_pos hlt, List.getElem?_eq_none hlt]
    · rw [if_neg hlt, List.getElem?_eq_getElem (by omega)]
  | bpClear => rfl
  | bpPut w =>
    simp only [exec, execBpPut, firstError, effect, dataOperand, legalWidth_eq_false, Params.capacityBits, gt_iff_lt]
    by_cases h1 : w = 0 ∨ 32 < w
    · simp [h1]
    · by_cases h2 : 8 * s.params.pbufBytes < s.bp.bitcnt + w <;> simp [h1, h2]
  | bpGet w =>
    simp only [exec, execBpGet, firstError, effect, legalWidth_eq_false, gt_iff_lt]
    by_cases h1 : w = 0 ∨ 32 < w
    · simp [h1]
    · by_cases h2 : s.bp.bitcnt < s.bp.rdpos + w <;> simp [h1, h2]
  | bpRewind => rfl
  | bpSetlen =>
    simp only [exec, execBpSetlen, firstError, effect, dataOperand, Params.capacityBits, gt_iff_lt]
    by_cases h1 : 8 * s.params.pbufBytes < s.data.toNat <;> simp [h1]

/-- The same as two cases. -/
theorem exec_cases {i : Instr} {s t : State} (h : exec i s = .next t) :
    (∃ e, firstError i s = some e ∧ t = s.withErrcode (recordError (opcode i) e s.errcode)) ∨
      (firstError i s = none ∧ t = effect i s) := by
  rw [exec_eq] at h
  cases he : firstError i s with
  | some e => rw [he] at h; left; exact ⟨e, rfl, by simpa [raise] using h.symm⟩
  | none => rw [he] at h; right; exact ⟨rfl, by simpa using h.symm⟩

theorem exec_of_error {i : Instr} {s : State} {e : ErrKind} (h : firstError i s = some e) :
    exec i s = .next (s.withErrcode (recordError (opcode i) e s.errcode)) := by rw [exec_eq, h]; rfl

theorem exec_of_no_error {i : Instr} {s : State} (h : firstError i s = none) : exec i s = .next (effect i s) := by
  rw [exec_eq, h]

/-- No command faults or is refused. -/
theorem exec_next (i : Instr) (s : State) : ∃ t, exec i s = .next t := by
  rw [exec_eq]
  cases firstError i s with
  | some e => exact ⟨_, rfl⟩
  | none => exact ⟨_, rfl⟩

/-! ## The error record -/

/-- Only device errors are raised (60_exceptions.md R170). -/
theorem firstError_mem {i : Instr} {s : State} {e : ErrKind} (h : firstError i s = some e) : e ∈ deviceErrors := by
  cases i <;> simp only [firstError] at h <;> (try split_ifs at h) <;> simp at h <;> subst h <;> decide

theorem recordError_legal {ec : Word} (op : BitVec 8) {e : ErrKind} (he : e ∈ deviceErrors) (h : LegalErrcode ec) :
    LegalErrcode (recordError op e ec) := by
  unfold recordError
  split
  · exact Or.inr ⟨op, e, he, rfl⟩
  · exact h

/-- A record's fields read back (10_state.md R25). -/
theorem errorRecord_code (op : BitVec 8) (e : ErrKind) : errcodeCode (errorRecord op e) = errCode e := by
  refine BitVec.eq_of_getLsbD_eq (fun k hk => ?_)
  simp only [errcodeCode, errorRecord]
  interval_cases k <;> simp

theorem errorRecord_op (op : BitVec 8) (e : ErrKind) : errcodeOp (errorRecord op e) = op := by
  refine BitVec.eq_of_getLsbD_eq (fun k hk => ?_)
  simp only [errcodeOp, errorRecord]
  interval_cases k <;> simp

theorem errCode_ne_zero (e : ErrKind) : errCode e ≠ 0#8 := by cases e <;> decide

/-- A record once made is kept (60_exceptions.md R172). -/
theorem recordError_of_code {ec : Word} (op : BitVec 8) (e : ErrKind) (h : errcodeCode ec ≠ 0#8) :
    recordError op e ec = ec := if_neg h

end Sys2Proof.Machine
end

