-- ==== Sys2Proof/Laws/HostPort.lean ====
section
/-! SUPPORT. What one step can do: where an access goes (20_memory.md R66, R67), and one lemma for every kind of
event. -/

namespace Sys2Proof.Machine

/-! ## Where an access goes -/

theorem locate_reg {p : Params} {offset n : Nat} (h : offset ≤ 0xFFF) (hn : n = 4) (ha : offset % 4 = 0) :
    locate p offset n = .ok (.reg (regAt offset)) := by
  unfold locate regPageEnd; rw [if_pos h, if_pos ⟨hn, ha⟩]

theorem locate_byte {p : Params} {i n : Nat} (hi : i < p.pbufBytes) (hn : n = 1) :
    locate p (0x20000000 + i) n = .ok (.byte i) := by
  unfold locate regPageEnd pbufBase
  rw [if_neg (by omega), if_pos ⟨by omega, by omega⟩, if_pos hn, Nat.add_sub_cancel_left]

theorem locate_form {p : Params} {offset n : Nat}
    (h : (offset ≤ 0xFFF ∧ ¬(n = 4 ∧ offset % 4 = 0)) ∨
      (0x20000000 ≤ offset ∧ offset < 0x20000000 + p.pbufBytes ∧ n ≠ 1)) :
    locate p offset n = .error .accessForm := by
  unfold locate regPageEnd pbufBase
  rcases h with ⟨h1, h2⟩ | ⟨h1, h2, h3⟩
  · rw [if_pos h1, if_neg h2]
  · rw [if_neg (by omega), if_pos ⟨h1, h2⟩, if_neg h3]

theorem locate_unmapped {p : Params} {offset n : Nat} (h1 : 0xFFF < offset)
    (h2 : ¬(0x20000000 ≤ offset ∧ offset < 0x20000000 + p.pbufBytes)) : locate p offset n = .error .unmapped := by
  unfold locate regPageEnd pbufBase; rw [if_neg (by omega), if_neg h2]

/-- Everything `locate` can answer. -/
theorem locate_ok {p : Params} {offset n : Nat} {t : Target} (h : locate p offset n = .ok t) :
    (offset ≤ 0xFFF ∧ n = 4 ∧ offset % 4 = 0 ∧ t = .reg (regAt offset)) ∨
      (0x20000000 ≤ offset ∧ offset < 0x20000000 + p.pbufBytes ∧ n = 1 ∧ t = .byte (offset - 0x20000000)) := by
  unfold locate regPageEnd pbufBase at h
  split_ifs at h with h1 h2 h3 h4
  · exact Or.inl ⟨h1, h2.1, h2.2, by simpa using h.symm⟩
  · exact Or.inr ⟨h3.1, h3.2, h4, by simpa using h.symm⟩

/-- The register map, offset by offset (10_state.md R21). -/
theorem regAt_offset (r : Reg) : regAt (regOffset r) = r := by cases r <;> rfl

/-- Every offset of the page from 0x03C on is reserved (R37). -/
theorem regAt_reserved {offset : Nat} (h : 0x03C ≤ offset) : regAt offset = .reserved := by
  have hn : regMap.lookup offset = none := by
    rw [List.lookup_eq_none_iff]
    intro q hq
    simp only [regMap, List.mem_cons, List.not_mem_nil, or_false] at hq
    rcases hq with rfl | rfl | rfl | rfl | rfl | rfl | rfl | rfl | rfl | rfl | rfl | rfl | rfl | rfl | rfl <;>
      simp <;> omega
  rw [regAt, hn]; rfl

/-! ## One step -/

theorem step_nil {s : State} (h : s.host = []) : step s = .fault .endOfRun := by unfold step; rw [h]

theorem step_cons {s : State} {ev : HostEvent} {rest : List HostEvent} (h : s.host = ev :: rest) :
    step s = perform ev (s.withHost rest) := by unfold step; rw [h]

theorem runCommand_ok {c : Word} {i : Instr} (h : decode c = .ok i) (s : State) : runCommand c s = exec i s := by
  unfold runCommand; rw [h]

theorem runCommand_error {c : Word} {e : Reject} (h : decode c = .error e) (s : State) :
    runCommand c s = .next (s.withErrcode (recordError (opField c) .illegalCommand s.errcode)) := by
  unfold runCommand; rw [h]; rfl

/-- A write to CMD executes the word (R26, R80). -/
theorem step_writeCmd {s : State} {c : Word} {rest : List HostEvent} (h : s.host = writeCmd c :: rest) :
    step s = runCommand c (s.withHost rest) := by
  rw [step_cons h]; rfl

/-- What a write to a register can do (20_memory.md R65). -/
theorem writeReg_cases {r : Reg} {v : Word} {s t : State} (h : writeReg r v s = .next t) :
    (r = .data ∧ t = s.withData v) ∨ (r = .cmd ∧ runCommand v s = .next t) ∨ t = s := by
  cases r <;> simp only [writeReg, Host.Outcome.next.injEq] at h
  case data => exact Or.inl ⟨rfl, h.symm⟩
  case cmd => exact Or.inr (Or.inl ⟨rfl, h⟩)
  all_goals exact Or.inr (Or.inr h.symm)

/-- What executing a word can do. -/
theorem runCommand_cases {c : Word} {s t : State} (h : runCommand c s = .next t) :
    (∃ op, ∃ e ∈ deviceErrors, t = s.withErrcode (recordError op e s.errcode)) ∨
      (∃ i, decode c = .ok i ∧ firstError i s = none ∧ t = effect i s) := by
  cases hd : decode c with
  | error e =>
    rw [runCommand_error hd] at h
    exact Or.inl ⟨opField c, .illegalCommand, by decide, by simpa using h.symm⟩
  | ok i =>
    rw [runCommand_ok hd] at h
    rcases exec_cases h with ⟨e, he, ht⟩ | ⟨hn, ht⟩
    · exact Or.inl ⟨opcode i, e, firstError_mem he, ht⟩
    · exact Or.inr ⟨i, rfl, hn, ht⟩

/-- Everything one step can do: an error record, a command's effect, a register or buffer access, or reset; the host's
list is one event shorter. -/
theorem step_next {s t : State} (h : step s = .next t) :
    ∃ ev rest, s.host = ev :: rest ∧
      ((∃ op, ∃ e ∈ deviceErrors, t = (s.withHost rest).withErrcode (recordError op e s.errcode)) ∨
       (∃ c i, decode c = .ok i ∧ firstError i (s.withHost rest) = none ∧ t = effect i (s.withHost rest)) ∨
       (∃ v, t = (s.withHost rest).withData v) ∨
       t = s.withHost rest ∨
       (∃ v, t = (s.withHost rest).logRead v) ∨
       (∃ i v, i < s.params.pbufBytes ∧ (∃ w, ev = .write (0x20000000 + i) 1 w) ∧
          t = (s.withHost rest).withBp (s.bp.setByte i v)) ∨
       (ev = .reset ∧ t = resetDevice (s.withHost rest))) := by
  cases hh : s.host with
  | nil => rw [step_nil hh] at h; cases h
  | cons ev rest =>
    refine ⟨ev, rest, rfl, ?_⟩
    rw [step_cons hh] at h
    cases ev with
    | read offset n =>
      simp only [perform, hostRead] at h
      split at h
      · cases h
      · exact Or.inr (Or.inr (Or.inr (Or.inr (Or.inl ⟨_, by simpa using h.symm⟩))))
      · exact Or.inr (Or.inr (Or.inr (Or.inr (Or.inl ⟨_, by simpa using h.symm⟩))))
    | write offset n v =>
      simp only [perform, hostWrite] at h
      split at h
      · cases h
      next r hr =>
        rcases writeReg_cases h with ⟨-, ht⟩ | ⟨-, hc⟩ | ht
        · exact Or.inr (Or.inr (Or.inl ⟨v, ht⟩))
        · rcases runCommand_cases hc with ⟨op, e, he, ht⟩ | ⟨i, hd, hn, ht⟩
          · exact Or.inl ⟨op, e, he, ht⟩
          · exact Or.inr (Or.inl ⟨v, i, hd, hn, ht⟩)
        · exact Or.inr (Or.inr (Or.inr (Or.inl ht)))
      next i hi =>
        rcases locate_ok hi with ⟨-, -, -, ht⟩ | ⟨h1, h2, rfl, ht⟩
        · cases ht
        · obtain ⟨k, rfl⟩ := Nat.exists_eq_add_of_le h1
          rw [Nat.add_sub_cancel_left] at ht
          have hik := Target.byte.inj ht
          rw [hik] at h
          refine Or.inr (Or.inr (Or.inr (Or.inr (Or.inr (Or.inl ⟨k, v.setWidth 8, ?_, ⟨v, rfl⟩, ?_⟩)))))
          · simp only [withHost_params] at h2; omega
          · exact (Host.Outcome.next.inj h).symm
    | reset => exact Or.inr (Or.inr (Or.inr (Or.inr (Or.inr (Or.inr ⟨rfl, by simpa [perform] using h.symm⟩)))))

end Sys2Proof.Machine
end

