-- ==== Sys2Proof/Laws/TreeInv.lean ====
section
/-! SUPPORT. Each change of the tree builder unit keeps its invariant (10_state.md R46). -/

namespace Sys2Proof.Machine

theorem empty_inv : TreeUnit.empty.Inv where
  capacity := by decide
  children := by simp [TreeUnit.empty]
  owned := by simp [TreeUnit.empty]
  inUse := by simp [TreeUnit.empty, TreeUnit.uses]
  entries := by simp [TreeUnit.empty]
  conserved := by simp [TreeUnit.empty, TreeUnit.leafTotal]
  rootIsEntry := by simp [TreeUnit.empty]
  rootClear := by simp [TreeUnit.empty]
  unmerged := by simp [TreeUnit.empty]
  balance := by simp [TreeUnit.empty]
  loadedRising := by simp [TreeUnit.empty]
  loadedLeaves := by simp [TreeUnit.empty]
  leafWeights := by simp [TreeUnit.empty]
  linkReserved := by decide

/-! ## The set LOADED -/

theorem mem_insertSymbol (s x : Symbol) (l : List Symbol) : x ∈ insertSymbol s l ↔ x = s ∨ x ∈ l := by
  induction l with
  | nil => simp [insertSymbol]
  | cons y l ih => unfold insertSymbol; (split_ifs <;> simp_all); tauto

theorem insertSymbol_rising (s : Symbol) {l : List Symbol} (h : l.Pairwise (· < ·)) :
    (insertSymbol s l).Pairwise (· < ·) := by
  induction l with
  | nil => simp [insertSymbol]
  | cons y l ih =>
    obtain ⟨hy, hl⟩ := List.pairwise_cons.1 h
    unfold insertSymbol
    split_ifs with h1 h2
    · refine List.pairwise_cons.2 ⟨fun z hz => ?_, h⟩
      rcases List.mem_cons.1 hz with rfl | hz
      · exact h1
      · have := hy z hz; bv_omega
    · exact h
    · refine List.pairwise_cons.2 ⟨fun z hz => ?_, ih hl⟩
      rcases (mem_insertSymbol s z l).1 hz with rfl | hz
      · bv_omega
      · exact hy z hz

theorem insertSymbol_length {s : Symbol} {l : List Symbol} (h : s ∉ l) :
    (insertSymbol s l).length = l.length + 1 := by
  induction l with
  | nil => rfl
  | cons y l ih =>
    simp only [List.mem_cons, not_or] at h
    unfold insertSymbol
    split_ifs
    · rfl
    · simp_all
    · simp [ih h.2]

/-- A rising list of symbols has at most 256 of them, and fewer if one is missing. -/
theorem rising_length_lt {s : Symbol} {l : List Symbol} (h : l.Pairwise (· < ·)) (hs : s ∉ l) : l.length ≤ 255 := by
  have hnd : (s :: l).Nodup := by
    refine List.nodup_cons.2 ⟨hs, h.imp (fun {a b} hab heq => ?_)⟩
    subst heq
    bv_omega
  have := (hnd.map BitVec.toFin_injective |>.length_le_card)
  simp at this
  omega

theorem rising_length_le {l : List Symbol} (h : l.Pairwise (· < ·)) : l.length ≤ 256 := by
  have hnd : l.Nodup := h.imp (fun {a b} hab heq => by subst heq; bv_omega)
  have := (hnd.map BitVec.toFin_injective |>.length_le_card)
  simpa using this

/-! ## Handles and slots -/

theorem toNat_ofNat_handle {n : Nat} (h : n < 512) : (BitVec.ofNat 9 n).toNat = n := by
  rw [BitVec.toNat_ofNat]; exact Nat.mod_eq_of_lt h

theorem nextHandle_toNat {t : TreeUnit} (h : t.nodes.length < 512) : t.nextHandle.toNat = t.nodes.length :=
  toNat_ofNat_handle h

/-- A pushed node leaves the weights of the slots in use alone. -/
theorem weightAt_of_append {t u : TreeUnit} {n : Node} (hu : u.nodes = t.nodes ++ [n]) {h : Handle}
    (hh : h.toNat < t.nodes.length) : u.weightAt h = t.weightAt h := by
  unfold TreeUnit.weightAt
  rw [hu, List.getElem?_append_left hh]

theorem weightAt_new {t u : TreeUnit} {n : Node} (hu : u.nodes = t.nodes ++ [n]) {h : Handle}
    (hh : h.toNat = t.nodes.length) : u.weightAt h = (nodeWeight n).toNat := by
  unfold TreeUnit.weightAt
  rw [hu, hh]
  simp

theorem getElem?_append_singleton_cases {α : Type} {l : List α} {n x : α} {h : Nat} (hx : (l ++ [n])[h]? = some x) :
    (h < l.length ∧ l[h]? = some x) ∨ (h = l.length ∧ x = n) := by
  rcases Nat.lt_trichotomy h l.length with hlt | heq | hgt
  · exact Or.inl ⟨hlt, by rwa [List.getElem?_append_left hlt] at hx⟩
  · subst heq; simp at hx; exact Or.inr ⟨rfl, hx.symm⟩
  · rw [List.getElem?_eq_none (by simp; omega)] at hx; simp at hx

/-- The handle of a fresh slot is used nowhere. -/
theorem count_fresh {t : TreeUnit} (hi : t.Inv) {h : Handle} (hh : t.nodes.length ≤ h.toNat) : t.uses.count h = 0 := by
  rw [List.count_eq_zero]
  intro hmem
  have := hi.inUse h hmem
  omega

/-! ## TB_LEAF -/

/-- TB_LEAF's handle never overflows: NCOUNT ≤ 255 (R114). -/
theorem ncount_le_of_loadable {t : TreeUnit} (hi : t.Inv) {sym : Symbol} (hm : t.merged = false)
    (hs : sym ∉ t.loaded) : t.nodes.length ≤ 255 := by
  have := rising_length_lt hi.loadedRising hs
  have := (hi.unmerged hm).2.1
  omega

theorem addLeaf_inv {t : TreeUnit} (hi : t.Inv) {sym : Symbol} {w : Word} (hw : w ≠ 0#32) (hm : t.merged = false)
    (hs : sym ∉ t.loaded) : (t.addLeaf sym w).Inv := by
  have hn := ncount_le_of_loadable hi hm hs
  have hh : t.nextHandle.toNat = t.nodes.length := nextHandle_toNat (by omega)
  obtain ⟨hleaf, hnl, hlp⟩ := hi.unmerged hm
  have hnodes : (t.addLeaf sym w).nodes = t.nodes ++ [.leaf sym w] := rfl
  have huses : (t.addLeaf sym w).uses = t.uses ++ [t.nextHandle] := by
    simp [TreeUnit.uses, Node.children, List.flatMap_append]
  constructor
  · simp [Config.nodeCap, Config.maxLeaves]; omega
  · intro h w' l r hx
    rcases getElem?_append_singleton_cases (hnodes ▸ hx) with ⟨hlt, hx⟩ | ⟨-, hx⟩
    · obtain ⟨h1, h2, h3, h4⟩ := hi.children h w' l r hx
      refine ⟨h1, h2, h3, ?_⟩
      rw [weightAt_of_append hnodes (by omega), weightAt_of_append hnodes (by omega), h4]
    · exact absurd hx (by simp)
  · intro h hlt
    rw [huses, List.count_append, List.count_singleton]
    simp only [addLeaf_nodes, List.length_append, List.length_singleton] at hlt
    by_cases hnew : h = t.nextHandle
    · rw [count_fresh hi (by rw [hnew]; omega)]; simp [hnew]
    · rw [hi.owned h (by have : h.toNat ≠ t.nextHandle.toNat := fun e => hnew (BitVec.eq_of_toNat_eq e); omega)]
      simp [Ne.symm hnew]
  · intro h hmem
    rw [huses, List.mem_append] at hmem
    simp only [addLeaf_nodes, List.length_append, List.length_singleton]
    rcases hmem with hmem | hmem
    · have := hi.inUse h hmem; omega
    · rw [List.mem_singleton.1 hmem]; omega
  · intro e he
    rw [addLeaf_pq, List.mem_append] at he
    rcases he with he | he
    · rw [weightAt_of_append hnodes (hi.inUse _ (List.mem_append.2 (Or.inr (List.mem_map.2 ⟨e, he, rfl⟩)))),
        hi.entries e he]
    · rw [List.mem_singleton.1 he, weightAt_new hnodes hh]; rfl
  · have := hi.conserved
    simp only [TreeUnit.leafTotal, addLeaf_nodes, addLeaf_pq, totalWeight_append, List.map_append, List.sum_append] at *
    rw [this]; simp [Node.leafWeight]
  · simp
  · simp
  · intro _
    refine ⟨?_, ?_, ?_⟩
    · intro n hn
      rw [hnodes, List.mem_append] at hn
      rcases hn with hn | hn
      · exact hleaf n hn
      · rw [List.mem_singleton.1 hn]; rfl
    · simp [insertSymbol_length hs]; omega
    · simp [insertSymbol_length hs]; omega
  · simp [insertSymbol_length hs]; omega
  · exact insertSymbol_rising sym hi.loadedRising
  · intro s
    simp only [addLeaf_loaded, addLeaf_nodes, mem_insertSymbol, hi.loadedLeaves s, List.mem_append, List.mem_singleton,
      Node.leaf.injEq]
    constructor
    · rintro (rfl | ⟨w', h⟩)
      · exact ⟨w, Or.inr ⟨rfl, rfl⟩⟩
      · exact ⟨w', Or.inl h⟩
    · rintro ⟨w', h | ⟨rfl, -⟩⟩
      · exact Or.inr ⟨w', h⟩
      · exact Or.inl rfl
  · intro s w' hmem
    simp only [addLeaf_nodes, List.mem_append, List.mem_singleton, Node.leaf.injEq] at hmem
    rcases hmem with hmem | ⟨-, rfl⟩
    · exact hi.leafWeights s w' hmem
    · exact hw
  · exact hi.linkReserved

/-! ## The merge step -/

/-- The entries left after two extractions are entries, and the handles taken are the two entries' own. -/
theorem erase_erase_perm {l : List Entry} {a b : Entry} (ha : a ∈ l) (hb : b ∈ l.erase a) :
    List.Perm l (a :: b :: (l.erase a).erase b) :=
  (List.perm_cons_erase ha).trans ((List.perm_cons_erase hb).cons a)

theorem mergeOf_uses {t : TreeUnit} {a b : Entry} (ha : a ∈ t.pq) (hb : b ∈ t.pq.erase a) :
    List.Perm (mergeOf t a b).uses (t.uses ++ [t.nextHandle]) := by
  have h := (erase_erase_perm ha hb).map (fun e : Entry => e.handle)
  simp only [List.map_cons] at h
  simp only [TreeUnit.uses, mergeOf, List.flatMap_append, List.map_append, List.flatMap_cons, List.flatMap_nil,
    List.map_cons, List.map_nil, Node.children, List.append_nil]
  rw [List.append_assoc, List.append_assoc]
  refine List.Perm.append_left _ ?_
  rw [← List.append_assoc]
  exact (h.symm).append_right _

theorem mergeOf_inv {t : TreeUnit} (hi : t.Inv) {a b : Entry} (ha : a ∈ t.pq) (hb : b ∈ t.pq.erase a)
    (hfit : a.weight.toNat + b.weight.toNat ≤ maxWord) : (mergeOf t a b).Inv := by
  have hb' : b ∈ t.pq := List.mem_of_mem_erase hb
  have hlen : (t.pq.erase a).length = t.pq.length - 1 := List.length_erase_of_mem ha
  have hlen2 : ((t.pq.erase a).erase b).length = (t.pq.erase a).length - 1 := List.length_erase_of_mem hb
  have hpos : 1 ≤ (t.pq.erase a).length := List.length_pos_of_mem hb
  have hcap := hi.capacity
  have hL := rising_length_le hi.loadedRising
  have hbal := hi.balance
  simp only [Config.nodeCap, Config.maxLeaves] at hcap
  have hh : t.nextHandle.toNat = t.nodes.length := nextHandle_toNat (by omega)
  have hnodes : (mergeOf t a b).nodes =
      t.nodes ++ [.internal (BitVec.ofNat 32 (a.weight.toNat + b.weight.toNat)) a.handle b.handle] := rfl
  have huses := mergeOf_uses ha hb
  have hua : a.handle ∈ t.uses := List.mem_append.2 (Or.inr (List.mem_map.2 ⟨a, ha, rfl⟩))
  have hub : b.handle ∈ t.uses := List.mem_append.2 (Or.inr (List.mem_map.2 ⟨b, hb', rfl⟩))
  have hfitW : (BitVec.ofNat 32 (a.weight.toNat + b.weight.toNat)).toNat = a.weight.toNat + b.weight.toNat := by
    rw [BitVec.toNat_ofNat]; exact Nat.mod_eq_of_lt (by unfold maxWord at hfit; omega)
  have hmlen : (mergeOf t a b).pq.length = t.pq.length - 1 := by
    simp only [mergeOf, List.length_append, List.length_singleton]; omega
  constructor
  · rw [hmlen, hnodes]; simp [Config.nodeCap, Config.maxLeaves]; omega
  · intro h w' l r hx
    rcases getElem?_append_singleton_cases (hnodes ▸ hx) with ⟨hlt, hx2⟩ | ⟨rfl, hx2⟩
    · obtain ⟨h1, h2, h3, h4⟩ := hi.children h w' l r hx2
      refine ⟨h1, h2, h3, ?_⟩
      rw [weightAt_of_append hnodes (by omega), weightAt_of_append hnodes (by omega), h4]
    · obtain ⟨rfl, rfl, rfl⟩ := Node.internal.inj hx2
      refine ⟨hi.inUse _ hua, hi.inUse _ hub, ?_, ?_⟩
      · intro heq
        -- equal handles would be two uses of one handle
        have h1 := hi.owned a.handle (hi.inUse _ hua)
        have hp := ((erase_erase_perm ha hb).map (fun e : Entry => e.handle)).count_eq a.handle
        simp only [TreeUnit.uses, List.count_append] at h1
        rw [hp] at h1
        simp [heq] at h1
        omega
      · rw [hfitW, weightAt_of_append hnodes (hi.inUse _ hua), weightAt_of_append hnodes (hi.inUse _ hub),
          hi.entries a ha, hi.entries b hb']
  · intro h hlt
    rw [huses.count_eq, List.count_append, List.count_singleton]
    rw [hnodes, List.length_append, List.length_singleton] at hlt
    by_cases hnew : h = t.nextHandle
    · rw [count_fresh hi (by rw [hnew]; omega)]; simp [hnew]
    · rw [hi.owned h (by have : h.toNat ≠ t.nextHandle.toNat := fun e => hnew (BitVec.eq_of_toNat_eq e); omega)]
      simp [Ne.symm hnew]
  · intro h hmem
    rw [huses.mem_iff, List.mem_append] at hmem
    rw [hnodes, List.length_append, List.length_singleton]
    rcases hmem with hmem | hmem
    · have := hi.inUse h hmem; omega
    · rw [List.mem_singleton.1 hmem]; omega
  · intro e he
    rcases List.mem_append.1 he with he | he
    · have he' := List.mem_of_mem_erase (List.mem_of_mem_erase he)
      rw [weightAt_of_append hnodes (hi.inUse _ (List.mem_append.2 (Or.inr (List.mem_map.2 ⟨e, he', rfl⟩)))),
        hi.entries e he']
    · rw [List.mem_singleton.1 he, weightAt_new hnodes hh]; rfl
  · rw [mergeOf_total ha hb hfit, hi.conserved]
    simp [TreeUnit.leafTotal, mergeOf, Node.leafWeight]
  · intro hr
    obtain ⟨w, hw⟩ := hi.rootIsEntry hr
    have hone : t.pq.length = 1 := by rw [hw]; rfl
    omega
  · exact hi.rootClear
  · intro hm; exact absurd hm (by simp [mergeOf])
  · rw [hmlen, hnodes]; simp [mergeOf]; omega
  · exact hi.loadedRising
  · intro s
    rw [show (mergeOf t a b).loaded = t.loaded from rfl, hi.loadedLeaves s, hnodes]
    simp
  · intro s w' hmem
    rw [hnodes] at hmem
    exact hi.leafWeights s w' (by simpa using hmem)
  · exact hi.linkReserved

/-! ## The root, the build and the read-back -/

theorem markRoot_inv {t : TreeUnit} (hi : t.Inv) {e : Entry} (h : t.pq = [e]) : t.markRoot.Inv := by
  rw [markRoot_of_single t h]
  exact { hi with rootIsEntry := fun _ => ⟨e.weight, h⟩, rootClear := fun hc => absurd hc (by simp) }

theorem mergeLoop_inv {t : TreeUnit} (hi : t.Inv) (fuel : Nat) (htot : totalWeight t.pq ≤ maxWord) :
    (TreeUnit.mergeLoop fuel t).Inv :=
  mergeLoop_induction (P := TreeUnit.Inv) (fun _ _ _ h ha hb _ _ hfit => mergeOf_inv h ha hb hfit) fuel t hi htot

/-- A build ends with one entry, the root's (R118). -/
theorem build_pq {t : TreeUnit} (h : t.pq ≠ []) : ∃ e, t.build.pq = [e] ∧ t.build.root = e.handle ∧ t.build.rootv = true := by
  have hl := mergeLoop_length t.pq.length t h (by omega)
  obtain ⟨e, he⟩ := List.length_eq_one_iff.1 hl
  refine ⟨e, ?_, ?_, ?_⟩
  · simp [TreeUnit.build, he]
  · simp [TreeUnit.build, markRoot_of_single _ he]
  · simp [TreeUnit.build, markRoot_of_single _ he]

theorem build_inv {t : TreeUnit} (hi : t.Inv) (h : t.pq ≠ []) (htot : totalWeight t.pq ≤ maxWord) : t.build.Inv := by
  obtain ⟨e, he⟩ := List.length_eq_one_iff.1 (mergeLoop_length t.pq.length t h (by omega))
  exact markRoot_inv (mergeLoop_inv hi _ htot) he

/-- NODE_LINK never has a reserved bit set (R36). -/
theorem linkWord_reserved (n : Node) : linkWord n &&& 0x7C000000#32 = 0#32 := by
  refine BitVec.eq_of_getLsbD_eq (fun k hk => ?_)
  cases n <;> simp only [linkWord] <;> interval_cases k <;> simp

theorem showNode_inv {t : TreeUnit} (hi : t.Inv) (n : Node) : (t.showNode n).Inv :=
  { hi with linkReserved := linkWord_reserved n }

end Sys2Proof.Machine
end

