-- ==== Sys2Proof/Laws/Effect.lean ====
section
/-! SUPPORT. What the effect of a command leaves alone and which unit invariant it keeps. -/

namespace Sys2Proof.Machine

/-! ## What no command touches (00_scope.md R20, 10_state.md R27) -/

@[simp] theorem effect_params (i : Instr) (s : State) : (effect i s).params = s.params := by
  cases i <;> simp only [effect] <;> (try split_ifs) <;> (try rfl)
  all_goals (split <;> rfl)

@[simp] theorem effect_host (i : Instr) (s : State) : (effect i s).host = s.host := by
  cases i <;> simp only [effect] <;> (try split_ifs) <;> (try rfl)
  all_goals (split <;> rfl)

@[simp] theorem effect_reads (i : Instr) (s : State) : (effect i s).reads = s.reads := by
  cases i <;> simp only [effect] <;> (try split_ifs) <;> (try rfl)
  all_goals (split <;> rfl)

@[simp] theorem effect_data (i : Instr) (s : State) : (effect i s).data = s.data := by
  cases i <;> simp only [effect] <;> (try split_ifs) <;> (try rfl)
  all_goals (split <;> rfl)

/-- Of the commands' effects only CLRERR's touches the error record. -/
theorem effect_errcode (i : Instr) (s : State) :
    (effect i s).errcode = s.errcode ∨ (i = .clrerr ∧ (effect i s).errcode = 0#32) := by
  cases i with
  | clrerr => exact Or.inr ⟨rfl, rfl⟩
  | tbMerge => left; simp only [effect]; split_ifs <;> rfl
  | tbRead h => left; simp only [effect]; split <;> rfl
  | _ => exact Or.inl rfl

/-! ## The tree builder unit (10_state.md R46) -/

/-- A command that raises no error keeps the tree builder's invariant. -/
theorem effect_tree_inv {i : Instr} {s : State} (h : s.tb.Inv) (hn : firstError i s = none) : (effect i s).tb.Inv := by
  cases i with
  | tbClear => exact empty_inv
  | tbLeaf sym =>
    simp only [firstError, toNat_eq_zero_iff] at hn
    split_ifs at hn with h1 h2 h3
    exact addLeaf_inv h h1 (by simpa using h2) h3
  | tbMerge =>
    simp only [firstError] at hn
    split_ifs at hn with h1 h2
    have hpos := List.length_pos_iff.2 h1
    simp only [effect]
    split_ifs with h3 h4
    · obtain ⟨e, he⟩ := List.length_eq_one_iff.1 h3
      exact markRoot_inv h he
    all_goals
      obtain ⟨a, b, hm, ha, hb, m1, m2⟩ := mergeStep_spec s.tb (by omega)
      have hfit := twoLowestSum_eq ha hb m1 m2
      have hinv : s.tb.mergeStep.Inv := by rw [hm]; exact mergeOf_inv h ha hb (by unfold maxWord; omega)
    · obtain ⟨e, he⟩ := List.length_eq_one_iff.1 h4
      exact markRoot_inv hinv he
    · exact hinv
  | tbBuild =>
    simp only [firstError] at hn
    split_ifs at hn with h1 h2
    exact build_inv h h1 (by unfold maxWord; omega)
  | tbRead k =>
    simp only [effect]
    split
    · exact h
    · exact showNode_inv h _
  | _ => exact h

/-! ## The bit packer unit (10_state.md R48) -/

theorem bitPackerEmpty_inv (p : Params) : BitPacker.empty.Inv p where
  counts := by simp [BitPacker.empty]
  canonical := Memory.wf_nil
  inBuffer := by simp [BitPacker.empty]

/-- A host write of a byte of the buffer keeps the invariant. -/
theorem setByte_inv {p : Params} {b : BitPacker} (h : b.Inv p) {i : Nat} (hi : i < p.pbufBytes) (v : Byte) :
    (b.setByte i v).Inv p := by
  refine ⟨h.counts, Memory.wf_write h.canonical _ _, fun c hc => ?_⟩
  rcases Memory.mem_write hc with hc | rfl
  · exact h.inBuffer c hc
  · exact hi

/-- A command that raises no error keeps the bit packer's invariant. -/
theorem effect_packer_inv {i : Instr} {s : State} (h : s.bp.Inv s.params) (hn : firstError i s = none) :
    (effect i s).bp.Inv s.params := by
  have ⟨⟨hr, hb⟩, hw, hin⟩ := h
  unfold Params.capacityBits at hb
  cases i with
  | tbMerge => simp only [effect]; split_ifs <;> exact h
  | tbRead k => simp only [effect]; split <;> exact h
  | bpClear => exact bitPackerEmpty_inv _
  | bpPut w =>
    simp only [firstError] at hn
    split_ifs at hn with h1 h2
    refine ⟨?_, wf_append hw _, fun c hc => ?_⟩
    · simp [effect, Params.capacityBits]; omega
    · rcases mem_append hc with hc | hc
      · exact hin c hc
      · rw [fieldBits_length] at hc; omega
  | bpGet w =>
    simp only [firstError] at hn
    split_ifs at hn with h1 h2
    refine ⟨?_, hw, hin⟩
    simp [effect, Params.capacityBits]; omega
  | bpRewind => exact ⟨⟨Nat.zero_le _, hb⟩, hw, hin⟩
  | bpSetlen =>
    simp only [firstError] at hn
    split_ifs at hn with h1
    refine ⟨?_, wf_writeBits hw _ _, fun c hc => ?_⟩
    · simp [effect, Params.capacityBits]; omega
    · rcases mem_writeBits hc with hc | ⟨q, h1, h2, h3⟩
      · exact hin c hc
      · simp [Params.capacityBits] at h2; omega
  | _ => exact h

/-! ## The padding (20_memory.md R63) -/

theorem padding_append {s : State} (hw : Memory.wf s.bp.pbuf) (hp : PaddingInv s) (bits : List Bool) :
    PaddingInv (s.withBp (s.bp.append bits)) := by
  intro q h1 h2
  simp only [withBp_bp, append_bitcnt, withBp_params] at h1 h2 ⊢
  rw [streamBit_append hw, if_neg (by omega), if_neg (by omega)]
  split_ifs
  · rfl
  · exact hp q (by omega) h2

theorem padding_setLength {s : State} (hw : Memory.wf s.bp.pbuf) (n : Nat) :
    PaddingInv (s.withBp (s.bp.setLength n s.params.capacityBits)) := by
  intro q h1 h2
  simp only [withBp_bp, setLength_bitcnt, withBp_params] at h1 h2 ⊢
  simp only [BitPacker.setLength]
  rw [streamBit_writeBits hw, List.length_replicate, if_pos (by omega), getD_replicate_false]

theorem padding_empty {s : State} (h : s.bp = BitPacker.empty) : PaddingInv s := by
  intro q _ _; rw [h]; simp [streamBit, BitPacker.empty]

end Sys2Proof.Machine
end

