-- ==== Sys2Proof/Laws/PerInstr.lean ====
section
/-! SUPPORT. Facts about every command as syntax, one lemma for each constructor. -/

namespace Sys2Proof.Laws.OpcodeOfEncode

/-- Bits 31:24 of a well-formed command's word are its opcode, the value ERRCODE.OP records (30_encoding.md R81 to R84,
60_exceptions.md R172). -/
def Statement (i : Instr) : Prop := i.wellFormed = true → opField (encode i) = opcode i

theorem nop : Statement .nop := fun _ => opField_encodeZ _
theorem clrerr : Statement .clrerr := fun _ => opField_encodeZ _
theorem tbClear : Statement .tbClear := fun _ => opField_encodeZ _
theorem tbLeaf (sym : Symbol) : Statement (.tbLeaf sym) := fun _ => opField_encodeS _ sym
theorem tbMerge : Statement .tbMerge := fun _ => opField_encodeZ _
theorem tbBuild : Statement .tbBuild := fun _ => opField_encodeZ _
theorem tbRead (h : Nat) : Statement (.tbRead h) := fun hw => opField_encodeLow _ (lt_of_wellFormed_h hw)
theorem bpClear : Statement .bpClear := fun _ => opField_encodeZ _
theorem bpPut (w : Nat) : Statement (.bpPut w) :=
  fun hw => opField_encodeLow _ ((lt_of_wellFormed_put hw).trans (by decide))
theorem bpGet (w : Nat) : Statement (.bpGet w) :=
  fun hw => opField_encodeLow _ ((lt_of_wellFormed_get hw).trans (by decide))
theorem bpRewind : Statement .bpRewind := fun _ => opField_encodeZ _
theorem bpSetlen : Statement .bpSetlen := fun _ => opField_encodeZ _

end Sys2Proof.Laws.OpcodeOfEncode
end

