-- ==== Sys2Proof/Tests/Slice0.lean ====
section
/-! SUPPORT. The model's own tests: the well-formedness checks, the decoding of words written out from 30_encoding.md,
single steps whose expected values are the vectors of 95_test_vectors.md (named in each comment), and for every
statement with hypotheses a concrete state that meets them. -/

namespace Sys2Proof.Tests

open Sys2Proof Sys2Proof.Machine

/-! ## Small states -/

/-- Reset, with one access for the host to make. -/
def withAccess (ev : HostEvent) : State := State.reset.withHost [ev]

/-- Reset, with a value in DATA. -/
def withOperand (v : Word) : State := State.reset.withData v

/-- Leaf A of weight 1. -/
def leafA : TreeUnit := TreeUnit.empty.addLeaf 0x41#8 1#32

/-- Leaves A of weight 1 and B of weight 2. -/
def leavesAB : TreeUnit := leafA.addLeaf 0x42#8 2#32

/-- Leaves 1 of weight 2^32 - 1 and 2 of weight 1: their sum does not fit (TB-12). -/
def leavesTooHeavy : TreeUnit := (TreeUnit.empty.addLeaf 0x01#8 0xFFFFFFFF#32).addLeaf 0x02#8 1#32

/-- The tree of leaves A and B. -/
def treeAB : TreeUnit := leavesAB.build

/-- Reset, with a tree builder unit and a value in DATA. -/
def withTree (t : TreeUnit) (v : Word) : State := (State.reset.withTb t).withData v

/-- Reset, with the stream 10110 of BP-3, read up to a position, and a value in DATA. -/
def withStream (rdpos : Nat) (v : Word) : State :=
  (State.reset.withBp { pbuf := [(0, 0xB0#8)], bitcnt := 5, rdpos := rdpos, result := 0#32 }).withData v

/-- Reset, with the first n bits of the buffer in use, all 0, and a value in DATA. -/
def withCount (n : Nat) (v : Word) : State :=
  (State.reset.withBp { pbuf := [], bitcnt := n, rdpos := 0, result := 0#32 }).withData v

/-! ## Well-formedness: an operand that does not fit its field is refused (R93) -/

theorem test_wf_tbRead_refuses_512 : (Instr.tbRead 512).wellFormed = false := by decide
theorem test_wf_tbRead_admits_511 : (Instr.tbRead 511).wellFormed = true := by decide
theorem test_wf_bpPut_refuses_64 : (Instr.bpPut 64).wellFormed = false := by decide
theorem test_wf_bpPut_admits_63 : (Instr.bpPut 63).wellFormed = true := by decide
theorem test_wf_bpGet_refuses_64 : (Instr.bpGet 64).wellFormed = false := by decide
theorem test_wf_bpGet_admits_63 : (Instr.bpGet 63).wellFormed = true := by decide
theorem test_wf_tbLeaf_symbol_256_refused : assembleTbLeaf 256 = none := by decide

/-! ## Decoding (95 section 2.1): words written out from R81 to R86 -/

theorem test_decode_nop : decode 0b00000000_000000000000000000000000#32 = .ok .nop := by decide
theorem test_decode_clrerr : decode 0b00000001_000000000000000000000000#32 = .ok .clrerr := by decide
theorem test_decode_tbClear : decode 0b00010000_000000000000000000000000#32 = .ok .tbClear := by decide
theorem test_decode_tbLeaf : decode 0b00010001_01000001_0000000000000000#32 = .ok (.tbLeaf 0x41#8) := by decide
theorem test_decode_tbLeaf_max : decode 0b00010001_11111111_0000000000000000#32 = .ok (.tbLeaf 0xFF#8) := by decide
theorem test_decode_tbMerge : decode 0b00010010_000000000000000000000000#32 = .ok .tbMerge := by decide
theorem test_decode_tbBuild : decode 0b00010011_000000000000000000000000#32 = .ok .tbBuild := by decide
theorem test_decode_tbRead : decode 0b00010100_000000000000000_111111111#32 = .ok (.tbRead 511) := by decide
theorem test_decode_bpClear : decode 0b00100000_000000000000000000000000#32 = .ok .bpClear := by decide
theorem test_decode_bpPut : decode 0b00100001_000000000000000000_100000#32 = .ok (.bpPut 32) := by decide
theorem test_decode_bpGet : decode 0b00100010_000000000000000000_000001#32 = .ok (.bpGet 1) := by decide
theorem test_decode_bpRewind : decode 0b00100011_000000000000000000000000#32 = .ok .bpRewind := by decide
theorem test_decode_bpSetlen : decode 0b00100100_000000000000000000000000#32 = .ok .bpSetlen := by decide

theorem test_decode_reserved_op_02 : decode 0x02000000#32 = .error .reservedOp := by decide
theorem test_decode_reserved_op_ff : decode 0xFF000000#32 = .error .reservedOp := by decide
theorem test_decode_z_bit0 : decode 0x10000001#32 = .error .reservedBits := by decide
theorem test_decode_s_low_bits : decode 0x1141FFFF#32 = .error .reservedBits := by decide
theorem test_decode_w_bit6 : decode 0x21000040#32 = .error .reservedBits := by decide
theorem test_decode_h_bit9 : decode 0x14000200#32 = .error .reservedBits := by decide

theorem test_encode_tbLeaf : encode (.tbLeaf 0x41#8) = 0x11410000#32 := by decide
theorem test_encode_tbRead : encode (.tbRead 511) = 0x140001FF#32 := by decide
theorem test_encode_bpPut : encode (.bpPut 33) = 0x21000021#32 := by decide

/-! ## Registers and the port (95 sections 2.1, 2.6) -/

/-- RG-1 -/
theorem test_reset_registers :
    readReg State.reset .id = 0x48504531#32 ∧ readReg State.reset .pbufSize = 64#32 ∧
      readReg State.reset .status = 0x10#32 := by decide

/-- RG-5 -/
theorem test_write_data :
    (nextOf (step (withAccess (.write 0x014 4 0xDEADBEEF#32)))).map State.data = some 0xDEADBEEF#32 := by decide

/-- RG-4 -/
theorem test_write_read_only : nextOf (step (withAccess (.write 0x01C 4 5#32))) = some State.reset := by decide

/-- RG-6 -/
theorem test_write_pbuf_byte :
    (nextOf (step (withAccess (.write 0x20000003 1 0x5A#32)))).map (fun s => (Memory.read s.bp.pbuf 3, s.bp.bitcnt)) =
      some (0x5A#8, 0) := by decide

/-- RG-7 -/
theorem test_refused_accesses :
    nextOf (step (withAccess (.write 0x014 2 0#32))) = none ∧ nextOf (step (withAccess (.read 0x008 1))) = none ∧
      nextOf (step (withAccess (.read 0x20000000 4))) = none ∧ nextOf (step (withAccess (.read 0x1000 4))) = none := by
  decide

/-- RG-8 -/
theorem test_reserved_opcode :
    (nextOf (step (withAccess (writeCmd 0x02000000#32)))).map State.errcode = some 0x210#32 := by decide

/-- RG-12 -/
theorem test_reserved_bit :
    (nextOf (step (withAccess (writeCmd 0x21000040#32)))).map State.errcode = some 0x2110#32 := by decide

/-- RS-1 -/
theorem test_reset_event :
    nextOf (step (((withStream 2 7#32).withTb leavesAB).withHost [.reset])) = some State.reset := by decide

/-! ## One step of each command (95 sections 2.2 to 2.4) -/

/-- CT-1 -/
theorem test_nop : nextOf (step (withAccess (writeCmd 0x00000000#32))) = some State.reset := by decide

/-- CT-2 -/
theorem test_clrerr : nextOf (exec .clrerr (State.reset.withErrcode 0x2202#32)) = some State.reset := by decide

/-- CT-4: an illegal CLRERR does not clear. -/
theorem test_clrerr_illegal :
    nextOf (runCommand 0x01000001#32 (State.reset.withErrcode 0x210#32)) =
      some (State.reset.withErrcode 0x210#32) := by decide

/-- TB-26 -/
theorem test_tbClear : nextOf (exec .tbClear (withTree leavesAB 5#32)) = some (withOperand 5#32) := by decide

/-- TB-1 -/
theorem test_tbLeaf :
    (nextOf (exec (.tbLeaf 0x41#8) (withOperand 10#32))).map
      (fun s => (s.tb.nodes, readReg s .tbCount, readReg s .status)) =
      some ([.leaf 0x41#8 10#32], 1#32, 0x10#32) := by decide

/-- TB-19 -/
theorem test_tbLeaf_duplicate :
    (nextOf (exec (.tbLeaf 0x41#8) (withTree leafA 7#32))).map (fun s => (s.errcode, s.tb.nodes)) =
      some (0x1113#32, [.leaf 0x41#8 1#32]) := by decide

/-- As TB-8, with the weights 1 and 2 so that no tie arises: the lighter leaf is on the left (R115). -/
theorem test_tbMerge :
    (nextOf (exec .tbMerge (withTree leavesAB 0#32))).map (fun s => (s.tb.nodes[2]?, readReg s .status)) =
      some (some (.internal 3#32 0#9 1#9), 0x1C#32) := by decide

/-- TB-12 -/
theorem test_tbMerge_overflow :
    nextOf (exec .tbMerge (withTree leavesTooHeavy 0#32)) =
      some ((withTree leavesTooHeavy 0#32).withErrcode 0x1215#32) := by decide

/-- TB-2 -/
theorem test_tbBuild_single :
    (nextOf (exec .tbBuild (withTree leafA 0#32))).map (fun s => (readReg s .status, s.tb.nodes.length)) =
      some (0x14#32, 1) := by decide

/-- TB-13 -/
theorem test_tbBuild_overflow :
    nextOf (exec .tbBuild (withTree leavesTooHeavy 0#32)) =
      some ((withTree leavesTooHeavy 0#32).withErrcode 0x1315#32) := by decide

/-- L1-1: a leaf's NODE_LINK. -/
theorem test_tbRead_leaf :
    (nextOf (exec (.tbRead 0) (withTree leafA 0#32))).map (fun s => (s.tb.nodeW, s.tb.nodeLink)) =
      some (1#32, 0x81040000#32) := by decide

/-- L1-2: the NODE_LINK of an internal node with children 2 and 3. -/
theorem test_tbRead_internal :
    (nextOf (exec (.tbRead 0) (withTree { TreeUnit.empty with nodes := [.internal 55#32 2#9 3#9] } 0#32))).map
      (fun s => (s.tb.nodeW, s.tb.nodeLink)) = some (55#32, 0x602#32) := by decide

/-- BP-29 -/
theorem test_bpClear : nextOf (exec .bpClear (withStream 2 7#32)) = some (withOperand 7#32) := by decide

/-- BP-4 -/
theorem test_bpPut :
    (nextOf (exec (.bpPut 2) (withStream 0 2#32))).map (fun s => (s.bp.pbuf, s.bp.bitcnt, readReg s .acc)) =
      some ([(0, 0xB4#8)], 7, 0x7B4#32) := by decide

/-- BP-28: a put zeroes the padding a host write set. -/
theorem test_bpPut_padding :
    (nextOf (exec (.bpPut 1) ((State.reset.withBp (BitPacker.empty.setByte 0 0xFF#8)).withData 1#32))).map
      (fun s => (s.bp.pbuf, s.bp.bitcnt)) = some ([(0, 0x80#8)], 1) := by decide

/-- BP-23 -/
theorem test_bpGet :
    (nextOf (exec (.bpGet 5) (withStream 0 0#32))).map (fun s => (s.bp.result, readReg s .status)) =
      some (0x16#32, 0x10#32) := by decide

/-- BP-20 -/
theorem test_bpGet_past_end :
    (nextOf (exec (.bpGet 6) (withStream 0 0#32))).map (fun s => (s.errcode, s.bp.rdpos)) =
      some (0x2202#32, 0) := by decide

/-- BP-21 -/
theorem test_bpRewind : nextOf (exec .bpRewind (withStream 5 0#32)) = some (withStream 0 0#32) := by decide

/-- BP-24, from the stream of BP-3, with a buffer of 2 bytes. -/
theorem test_bpSetlen :
    (nextOf (exec .bpSetlen { withStream 2 3#32 with params := ⟨2, 0⟩ })).map (fun s => (s.bp.pbuf, s.bp.bitcnt, s.bp.rdpos)) =
      some ([(0, 0xA0#8)], 3, 0) := by decide

/-- BP-25 -/
theorem test_bpSetlen_too_long :
    (nextOf (exec .bpSetlen (withOperand 513#32))).map (fun s => (s.errcode, s.bp.bitcnt)) =
      some (0x2411#32, 0) := by decide

/-- BP-30: 33 bits, a 1 and 32 0s, are a put of 32 and a put of 1. -/
theorem test_putbits :
    assemble (.putbits (true :: List.replicate 32 false)) =
      some [.write 0x014 4 0x80000000#32, .write 0x010 4 0x21000020#32, .write 0x014 4 0#32,
        .write 0x010 4 0x21000001#32] := by rfl

/-- BP-5's second put in the barrel-shifter form. -/
theorem test_barrel_form :
    (({ pbuf := [(0, 0xB0#8)], bitcnt := 4, rdpos := 0, result := 0#32 } : BitPacker).barrelPut 0xDEADBEEF#32 32).pbuf =
      [(0, 0xBD#8), (1, 0xEA#8), (2, 0xDB#8), (3, 0xEE#8), (4, 0xF0#8)] := by decide

/-! ## States that meet the invariants -/

theorem leafA_inv : leafA.Inv := addLeaf_inv empty_inv (by decide) rfl (by decide)

theorem leavesAB_inv : leavesAB.Inv := addLeaf_inv leafA_inv (by decide) rfl (by decide)

theorem leavesTooHeavy_inv : leavesTooHeavy.Inv :=
  addLeaf_inv (addLeaf_inv empty_inv (by decide) rfl (by decide)) (by decide) rfl (by decide)

theorem treeAB_inv : treeAB.Inv := build_inv leavesAB_inv (by decide) (by decide)

theorem vectorParams_legal : Config.vectorParams.Legal := by decide

theorem withTree_inv {t : TreeUnit} (h : t.Inv) (v : Word) : (withTree t v).Inv :=
  ⟨vectorParams_legal, h, bitPackerEmpty_inv _, Or.inl rfl⟩

theorem withStream_inv {n : Nat} (h : n ≤ 5) (v : Word) : (withStream n v).Inv where
  params := vectorParams_legal
  tree := empty_inv
  packer :=
    { counts := ⟨h, show 5 ≤ Config.vectorParams.capacityBits by decide⟩
      canonical := show Memory.wf [(0, 0xB0#8)] by decide
      inBuffer := show ∀ c ∈ ([(0, 0xB0#8)] : Memory), c.1 < Config.vectorParams.pbufBytes by decide }
  errcode := Or.inl rfl

theorem reset_inv : State.reset.Inv := ⟨vectorParams_legal, empty_inv, bitPackerEmpty_inv _, Or.inl rfl⟩

/-! ## A witness for the hypotheses of each statement -/

theorem witness_DecodeOfEncodeIsIdentity :
    (Instr.tbRead 511).wellFormed = true ∧ (Instr.bpPut 63).wellFormed = true ∧
      (Instr.tbLeaf 0xFF#8).wellFormed = true := by decide

theorem witness_EncodeOfDecodeIsIdentity :
    decode 0x140001FF#32 = .ok (.tbRead 511) ∧ decode 0x2100003F#32 = .ok (.bpPut 63) := by decide

theorem witness_ReservedWordsRaiseIllegalCommand :
    (withAccess (.write 0x010 4 0x02000000#32)).host = .write 0x010 4 0x02000000#32 :: [] ∧
      0x02 ≤ ((0x02000000#32).extractLsb' 24 8).toNat ∧ ((0x02000000#32).extractLsb' 24 8).toNat ≤ 0x0F ∧
      ((0x0F000000#32).extractLsb' 24 8).toNat = 0x0F ∧ ((0x15000000#32).extractLsb' 24 8).toNat = 0x15 ∧
      ((0x1F000000#32).extractLsb' 24 8).toNat = 0x1F ∧ 0x25 ≤ ((0x25000000#32).extractLsb' 24 8).toNat ∧
      0x25 ≤ ((0xFF000000#32).extractLsb' 24 8).toNat ∧ 0x10000001#32 &&& 0x00FFFFFF#32 ≠ 0#32 ∧
      0x1141FFFF#32 &&& 0x0000FFFF#32 ≠ 0#32 ∧ 0x14000200#32 &&& 0x00FFFE00#32 ≠ 0#32 ∧
      0x21000040#32 &&& 0x00FFFFC0#32 ≠ 0#32 := by decide

theorem witness_StepRunsTheDecodedCommand :
    (withAccess (.write 0x010 4 0x13000000#32)).host = .write 0x010 4 0x13000000#32 :: [] ∧
      decode 0x13000000#32 = .ok .tbBuild := by decide

theorem witness_StepWithoutAccessEndsTheRun : State.reset.host = [] := rfl

/-- One access for each clause, at the ends of its range: 0xFFC and 0xFFE in the page, the first and last byte of the
window, 0x1000, the offset before the window and the one after it. -/
theorem witness_OnlyTheTwoAccessFormsHaveAStep :
    (withAccess (.read 0xFFC 4)).host = .read 0xFFC 4 :: [] ∧ (0xFFC ≤ 0xFFF ∧ 0xFFC % 4 = 0) ∧
      (0xFFE ≤ 0xFFF ∧ ¬(0xFFE % 4 = 0)) ∧
      (withAccess (.write 0x2000003F 1 0#32)).host = .write 0x2000003F 1 0#32 :: [] ∧
      0x2000003F < 0x20000000 + State.reset.params.pbufBytes ∧
      (0xFFF < 0x1000 ∧ ¬(0x20000000 ≤ 0x1000)) ∧ ¬(0x20000000 ≤ 0x1FFFFFFF) ∧
      ¬(0x20000040 < 0x20000000 + State.reset.params.pbufBytes) := by decide

theorem witness_ReadsHaveNoSideEffect :
    (withAccess (.read 0x008 4)).host = .read 0x008 4 :: [] ∧
      step (withAccess (.read 0x008 4)) =
        .next { State.reset with reads := [.word (readReg (withAccess (.read 0x008 4)) .status)] } ∧
      (withAccess (.read 0x2000003F 1)).host = .read 0x2000003F 1 :: [] ∧
      step (withAccess (.read 0x2000003F 1)) = .next { State.reset with reads := [.byte 0#8] } :=
  ⟨rfl, rfl, rfl, rfl⟩

/-- At the ends of the register map: ID, NODE_LINK, and the first and last reserved offsets. -/
theorem witness_RegisterReadsReturnTheirRulesValue :
    ((withTree treeAB 0#32).withHost [.read 0x000 4]).Inv ∧ ((withTree treeAB 0#32).withHost [.read 0x038 4]).Inv ∧
      ((withTree treeAB 0#32).withHost [.read 0x03C 4]).Inv ∧
      ((withTree treeAB 0#32).withHost [.read 0xFFC 4]).Inv ∧
      ((withTree treeAB 0#32).withHost [.read 0xFFC 4]).host = .read 0xFFC 4 :: [] ∧ 0xFFC % 4 = 0 ∧ 0xFFC ≤ 0xFFF :=
  have h (evs : List HostEvent) : ((withTree treeAB 0#32).withHost evs).Inv :=
    let i := withTree_inv treeAB_inv 0#32
    ⟨i.params, i.tree, i.packer, i.errcode⟩
  ⟨h _, h _, h _, h _, rfl, by decide, by decide⟩

theorem witness_ReadOnlyAndReservedWritesAreIgnored :
    (withAccess (.write 0x038 4 5#32)).host = .write 0x038 4 5#32 :: [] ∧
      0x038 ∈ [0x000, 0x004, 0x008, 0x00C, 0x018, 0x01C, 0x020, 0x024, 0x028, 0x02C, 0x030, 0x034, 0x038] ∧
      (withAccess (.write 0x03C 4 5#32)).host = .write 0x03C 4 5#32 :: [] ∧
      (withAccess (.read 0xFFC 4)).host = .read 0xFFC 4 :: [] := by decide

theorem witness_OnlyTheHostWritesData :
    (withAccess (.write 0x014 4 7#32)).host = .write 0x014 4 7#32 :: [] ∧
      (withAccess (.write 0x010 4 0x00000000#32)).host = .write 0x010 4 0x00000000#32 :: [] ∧
      step (withAccess (.write 0x010 4 0x00000000#32)) = .next State.reset := ⟨rfl, rfl, rfl⟩

theorem witness_PbufWindowReadsAndWritesOneByte :
    63 < (withAccess (.read (0x20000000 + 63) 1)).params.pbufBytes ∧
      Memory.wf (withAccess (.read (0x20000000 + 63) 1)).bp.pbuf ∧
      (withAccess (.read (0x20000000 + 63) 1)).host = .read (0x20000000 + 63) 1 :: [] ∧
      (withAccess (.write (0x20000000 + 0) 1 0x5A#32)).host = .write (0x20000000 + 0) 1 0x5A#32 :: [] := by decide

theorem witness_ResetSetsEveryElement : (withAccess .reset).host = .reset :: [] := rfl

/-- Each error of the tree builder and the packer, and a word that decodes to no command. -/
theorem witness_FailedCommandOnlyRecordsTheFirstError :
    firstError (.tbLeaf 0x41#8) State.reset = some .badOperand ∧
      firstError (.tbLeaf 0x41#8) (withTree treeAB 1#32) = some .sequenceError ∧
      firstError (.tbLeaf 0x41#8) (withTree leafA 1#32) = some .duplicateSymbol ∧
      firstError .tbMerge State.reset = some .emptyAlphabet ∧
      firstError .tbBuild (withTree leavesTooHeavy 0#32) = some .weightOverflow ∧
      firstError (.bpPut 1) (withCount 512 0#32) = some .capacityExceeded ∧
      firstError (.bpGet 1) State.reset = some .bitRequestOutOfRange ∧
      decode 0x02000000#32 = .error .reservedOp := by decide

theorem witness_SuccessfulCommandKeepsTheErrorRecord :
    firstError (.bpPut 1) (State.reset.withErrcode 0x2202#32) = none ∧ Instr.bpPut 1 ≠ .clrerr := by decide

theorem witness_ReissuedCommandFailsAgain :
    firstError .tbMerge State.reset = some .emptyAlphabet ∧
      exec .tbMerge State.reset = .next (State.reset.withErrcode 0x1201#32) := ⟨by decide, rfl⟩

/-- The hypothesis of `ReservedBitsAreIllegal`, used by every command's statement. -/
theorem witness_ReservedBitsAreIllegal :
    (0x01000001#32).extractLsb' 24 8 = 0x01#8 ∧ 0x01000001#32 &&& 0x00FFFFFF#32 ≠ 0#32 ∧
      (0x1141FFFF#32).extractLsb' 24 8 = 0x11#8 ∧ 0x1141FFFF#32 &&& 0x0000FFFF#32 ≠ 0#32 ∧
      (0x14000200#32).extractLsb' 24 8 = 0x14#8 ∧ 0x14000200#32 &&& 0x00FFFE00#32 ≠ 0#32 ∧
      (0x21000040#32).extractLsb' 24 8 = 0x21#8 ∧ 0x21000040#32 &&& 0x00FFFFC0#32 ≠ 0#32 := by decide

theorem witness_TbLeafLoadsOneLeaf :
    (withTree leafA 0#32).tb.Inv ∧ (withTree leafA 0#32).data = 0#32 ∧
      (withTree treeAB 1#32).tb.Inv ∧ (withTree treeAB 1#32).tb.merged = true ∧
      (withTree leafA 1#32).data ≠ 0#32 ∧ (withTree leafA 1#32).tb.merged = false ∧
      0x41#8 ∈ (withTree leafA 1#32).tb.loaded ∧ 0x42#8 ∉ (withTree leafA 1#32).tb.loaded :=
  ⟨leafA_inv, rfl, treeAB_inv, by decide, by decide, by decide, by decide, by decide⟩

theorem witness_ContainerPrimitivesFollowTheirRules : leavesAB.pq ≠ [] := by decide

theorem witness_TbMergeMergesTheTwoLightest :
    State.reset.tb.Inv ∧ State.reset.tb.pq = [] ∧ (withTree leafA 0#32).tb.Inv ∧
      (withTree leafA 0#32).tb.pq = [{ weight := 1#32, handle := 0#9 }] ∧ (withTree leavesAB 0#32).tb.Inv ∧
      2 ≤ (withTree leavesAB 0#32).tb.pq.length ∧ (withTree leavesTooHeavy 0#32).tb.Inv ∧
      2 ≤ (withTree leavesTooHeavy 0#32).tb.pq.length ∧ 4294967295 < twoLowestSum leavesTooHeavy.pq :=
  ⟨empty_inv, rfl, leafA_inv, by decide, leavesAB_inv, by decide, leavesTooHeavy_inv, by decide, by decide⟩

theorem witness_MergeStepCombinesTheTwoExtracted : leavesAB.Inv ∧ 2 ≤ leavesAB.pq.length ∧
    ∀ a ∈ leavesAB.pq, ∀ b ∈ leavesAB.pq, a.weight.toNat + b.weight.toNat ≤ 4294967295 :=
  ⟨leavesAB_inv, by decide, by decide⟩

/-- With no merge before it, and with one. -/
theorem witness_BuildAfterMergesIsBuild :
    firstError .tbBuild (withTree leavesAB 0#32) = none ∧
      runCommands (List.replicate 0 (0#32, .tbMerge)) (withTree leavesAB 0#32) = .next (withTree leavesAB 0#32) ∧
      (nextOf (runCommands (List.replicate 1 (0#32, .tbMerge)) (withTree leavesAB 0#32))).map (fun s => s.tb.merged) =
        some true := ⟨by decide, rfl, by decide⟩

theorem witness_OverflowCheckIsExactForEveryTieBreak :
    let a : Entry := { weight := 1#32, handle := 0#9 }
    let b : Entry := { weight := 1#32, handle := 1#9 }
    b ∈ [a, b] ∧ a ∈ [a, b].erase b ∧ (∀ x ∈ [a, b], b.weight.toNat ≤ x.weight.toNat) ∧
      ∀ x ∈ [a, b].erase b, a.weight.toNat ≤ x.weight.toNat := by decide

theorem witness_LighterEntryGoesLeft :
    leavesAB.Inv ∧ 2 ≤ leavesAB.pq.length ∧ twoLowestSum leavesAB.pq ≤ 4294967295 :=
  ⟨leavesAB_inv, by decide, by decide⟩

theorem witness_TbBuildMergesUntilOneRootRemains :
    State.reset.tb.pq = [] ∧ 4294967295 < (leavesTooHeavy.pq.map (fun e => e.weight.toNat)).sum ∧
      (leafA.pq.map (fun e => e.weight.toNat)).sum ≤ 4294967295 ∧ leafA.pq = [{ weight := 1#32, handle := 0#9 }] ∧
      (leavesAB.pq.map (fun e => e.weight.toNat)).sum ≤ 4294967295 ∧ 2 ≤ leavesAB.pq.length ∧ leavesAB.pq ≠ [] := by
  decide

theorem witness_BuildOfACompleteTreeChangesNothing :
    (withTree treeAB 0#32).tb.Inv ∧ (withTree treeAB 0#32).tb.rootv = true := ⟨treeAB_inv, by decide⟩

theorem witness_TbReadShowsTheNode :
    (withTree treeAB 0#32).tb.nodes.length ≤ 3 ∧ (withTree treeAB 0#32).tb.nodes[0]? = some (.leaf 0x41#8 1#32) ∧
      (withTree treeAB 0#32).tb.nodes[2]? = some (.internal 3#32 0#9 1#9) := by decide

theorem witness_RootWeighsWhatTheLeavesWeigh :
    (withTree leavesAB 0#32).tb.Inv ∧ firstError .tbBuild (withTree leavesAB 0#32) = none :=
  ⟨leavesAB_inv, by decide⟩

/-- From a TB_CLEAR and from a reset. -/
theorem witness_SameTreeCommandsBuildTheSameTree :
    (∀ x ∈ [(1#32, Instr.tbLeaf 0x41#8), (0#32, Instr.tbBuild)], isTreeCommand x.2 = true) ∧
      exec .tbClear (withTree leavesAB 5#32) = .next (withOperand 5#32) ∧
      (withAccess .reset).host = .reset :: [] ∧ step (withAccess .reset) = .next State.reset :=
  ⟨by decide, rfl, rfl, rfl⟩

theorem witness_LighterLeavesAreNoShallower :
    [(0x41#8, 10#32), (0x42#8, 20#32), (0x43#8, 25#32)] ≠ ([] : List (Symbol × Word)) ∧
      ([(0x41#8, 10#32), (0x42#8, 20#32), (0x43#8, 25#32)].map Prod.fst).Nodup ∧
      (∀ l ∈ [(0x41#8, 10#32), (0x42#8, 20#32), (0x43#8, 25#32)], l.2 ≠ 0#32) ∧
      ([(0x41#8, 10#32), (0x42#8, 20#32), (0x43#8, 25#32)].map (fun l : Symbol × Word => l.2.toNat)).sum ≤
        4294967295 := ⟨by decide, by decide, by simp, by simp⟩

theorem witness_BpPutAppendsTheField :
    Memory.wf (withStream 0 0#32).bp.pbuf ∧ (33 = 0 ∨ 32 < 33) ∧ Memory.wf (withCount 511 0#32).bp.pbuf ∧
      8 * (withCount 511 0#32).params.pbufBytes < (withCount 511 0#32).bp.bitcnt + 2 ∧
      (withCount 511 0#32).bp.bitcnt + 1 ≤ 8 * (withCount 511 0#32).params.pbufBytes := by decide

theorem witness_BpGetReadsTheNextField :
    (0 = 0 ∨ 32 < 0) ∧ (withStream 3 0#32).bp.bitcnt < (withStream 3 0#32).bp.rdpos + 3 ∧
      (withStream 3 0#32).bp.rdpos + 2 ≤ (withStream 3 0#32).bp.bitcnt := by decide

theorem witness_BpSetlenSetsTheCountAndZeroesTheRest :
    Memory.wf (withStream 0 512#32).bp.pbuf ∧
      8 * (withStream 0 513#32).params.pbufBytes < (withStream 0 513#32).data.toNat ∧
      (withStream 0 512#32).data.toNat ≤ 8 * (withStream 0 512#32).params.pbufBytes := by decide

theorem witness_TwoPutsConcatenate :
    Memory.wf (withStream 0 0#32).bp.pbuf ∧ 1 ≤ 3 ∧ 1 ≤ 29 ∧ 3 + 29 ≤ 32 ∧
      (withStream 0 0#32).bp.bitcnt + 3 + 29 ≤ 8 * (withStream 0 0#32).params.pbufBytes := by decide

theorem witness_BarrelShifterFormEqualsBpPut :
    Memory.wf (withCount 480 0#32).bp.pbuf ∧ 1 ≤ 32 ∧ 32 ≤ 32 ∧
      (withCount 480 0#32).bp.bitcnt + 32 ≤ 8 * (withCount 480 0#32).params.pbufBytes := by decide

/-- Sixteen fields of 32 bits fill the buffer (BP-13). It serves the pack contract and the round trip. -/
theorem witness_PackContract :
    (∀ f ∈ List.replicate 16 (0xFFFFFFFF#32, 32), 1 ≤ f.2 ∧ f.2 ≤ 32) ∧
      ((List.replicate 16 (0xFFFFFFFF#32, 32)).map Prod.snd).sum ≤ 8 * State.reset.params.pbufBytes := by decide

theorem witness_RoundTripLaw :
    (∀ f ∈ [(0xB#32, 4), (0xDEADBEEF#32, 32)], 1 ≤ f.2 ∧ f.2 ≤ 32) ∧
      ([(0xB#32, 4), (0xDEADBEEF#32, 32)].map Prod.snd).sum ≤ 8 * State.reset.params.pbufBytes := by decide

theorem witness_LoadedStreamContract :
    Memory.wf (withStream 0 5#32).bp.pbuf ∧
      (withStream 0 5#32).data.toNat ≤ 8 * (withStream 0 5#32).params.pbufBytes ∧ (∀ w ∈ [2, 3], 1 ≤ w ∧ w ≤ 32) ∧
      [2, 3].sum ≤ (withStream 0 5#32).data.toNat := by decide

/-- A command that raises no error, and one that fails with a record already held. -/
theorem witness_TreeCommandsFrame :
    isTreeCommand .tbClear = true ∧ exec .tbClear (withTree leavesAB 5#32) = .next (withOperand 5#32) ∧
      firstError .tbClear (withTree leavesAB 5#32) = none ∧ isTreeCommand .tbMerge = true ∧
      firstError .tbMerge (State.reset.withErrcode 0x2202#32) ≠ none ∧
      exec .tbMerge (State.reset.withErrcode 0x2202#32) = .next (State.reset.withErrcode 0x2202#32) :=
  ⟨rfl, rfl, rfl, rfl, by decide, rfl⟩

/-- A command that raises no error, and one that fails with a record already held. -/
theorem witness_PackerCommandsFrame :
    isPackerCommand .bpClear = true ∧ exec .bpClear (withStream 2 7#32) = .next (withOperand 7#32) ∧
      firstError .bpClear (withStream 2 7#32) = none ∧ isPackerCommand (.bpGet 1) = true ∧
      firstError (.bpGet 1) (State.reset.withErrcode 0x1201#32) ≠ none ∧
      exec (.bpGet 1) (State.reset.withErrcode 0x1201#32) = .next (State.reset.withErrcode 0x1201#32) :=
  ⟨rfl, rfl, rfl, rfl, by decide, rfl⟩

/-- A command that changes RESULT, one that changes NODE_W, and one that changes ERRCODE. -/
theorem witness_EachResultRegisterHasItsWriters :
    (nextOf (exec (.bpGet 2) (withStream 0 0#32))).map (fun s => s.bp.result) = some 2#32 ∧
      (withStream 0 0#32).bp.result ≠ 2#32 ∧
      (nextOf (exec (.tbRead 0) (withTree leafA 0#32))).map (fun s => s.tb.nodeW) = some 1#32 ∧
      (withTree leafA 0#32).tb.nodeW ≠ 1#32 ∧
      (nextOf (exec .tbMerge State.reset)).map State.errcode = some 0x1201#32 := by decide

theorem witness_SlotsInUseAreNeverRewritten :
    Instr.tbMerge ≠ .tbClear ∧
      (nextOf (exec .tbMerge (withTree leavesAB 0#32))).map (fun s => s.tb.nodes.length) = some 3 ∧
      (withTree leavesAB 0#32).tb.nodes[0]? = some (.leaf 0x41#8 1#32) := by decide

/-- A put and a get that change a count, from a state within the bounds. -/
theorem witness_BitCountsStayInBounds :
    (withStream 5 0#32).bp.rdpos ≤ (withStream 5 0#32).bp.bitcnt ∧
      (withStream 5 0#32).bp.bitcnt ≤ 8 * (withStream 5 0#32).params.pbufBytes ∧
      (nextOf (step ((withStream 5 0#32).withHost [writeCmd 0x21000001#32]))).map (fun s => s.bp.bitcnt) = some 6 ∧
      (nextOf (exec (.bpGet 1) (withStream 0 0#32))).map (fun s => s.bp.rdpos) = some 1 := by decide

theorem witness_PaddingInvariantIsKept :
    Memory.wf ((withStream 0 3#32).withHost [writeCmd 0x23000000#32]).bp.pbuf ∧
      PaddingInv ((withCount 5 3#32).withHost [writeCmd 0x23000000#32]) ∧
      step ((withCount 5 3#32).withHost [writeCmd 0x23000000#32]) = .next (withCount 5 3#32) ∧
      (∀ i v rest, i < 64 →
        ((withCount 5 3#32).withHost [writeCmd 0x23000000#32]).host ≠ .write (0x20000000 + i) 1 v :: rest) ∧
      (withStream 0 512#32).data.toNat ≤ 8 * (withStream 0 512#32).params.pbufBytes :=
  ⟨by decide, fun _ _ _ => by simp [withCount, streamBit], rfl,
    fun i v rest _ h => by simp [writeCmd] at h, by decide⟩

theorem witness_StepTakesOneEventAndKeepsTheParameters :
    step (withAccess (.write 0x010 4 0x00000000#32)) = .next State.reset := rfl

theorem witness_ResetMeetsTheInvariant : Params.Legal ⟨1, 0⟩ ∧ Params.Legal ⟨536870911, 0⟩ := by decide

theorem witness_StepKeepsTheInvariant :
    ((withTree treeAB 0#32).withHost [.write 0x014 4 3#32]).Inv ∧
      step ((withTree treeAB 0#32).withHost [.write 0x014 4 3#32]) = .next (withTree treeAB 3#32) ∧
      ((withStream 2 0#32).withHost [.write 0x010 4 0x23000000#32]).Inv :=
  let i := withTree_inv treeAB_inv 0#32
  let j := withStream_inv (n := 2) (by decide) 0#32
  ⟨⟨i.params, i.tree, i.packer, i.errcode⟩, rfl, ⟨j.params, j.tree, j.packer, j.errcode⟩⟩

theorem witness_PutbitsAppendsItsBits :
    (true :: List.replicate 32 false) ≠ [] ∧ Memory.wf (withCount 479 0#32).bp.pbuf ∧
      (withCount 479 0#32).bp.bitcnt + (true :: List.replicate 32 false).length ≤
        8 * (withCount 479 0#32).params.pbufBytes := by decide

end Sys2Proof.Tests
end

section
/-! Register accesses at the port (10_state.md R21 to R38): one lemma each for a read and a write of a whole aligned
register, and O12, which follows from them. -/

namespace Sys2Proof.Machine

/-- A 4-byte read at an aligned offset of the page returns the register there and changes nothing else (R64, R66). -/
theorem step_read_register {s : State} {offset : Nat} {rest : List HostEvent} (h : s.host = .read offset 4 :: rest)
    (hp : offset ≤ 0xFFF) (ha : offset % 4 = 0) :
    step s = .next ((s.withHost rest).logRead (.word (readReg (s.withHost rest) (regAt offset)))) := by
  rw [step_cons h]
  simp only [perform, hostRead, locate_reg hp rfl ha]

/-- A 4-byte write at an aligned offset of the page is a write to the register there (R65, R66). -/
theorem step_write_register {s : State} {offset : Nat} {v : Word} {rest : List HostEvent}
    (h : s.host = .write offset 4 v :: rest) (hp : offset ≤ 0xFFF) (ha : offset % 4 = 0) :
    step s = writeReg (regAt offset) v (s.withHost rest) := by
  rw [step_cons h]
  simp only [perform, hostWrite, locate_reg hp rfl ha]

/-- Only DATA and CMD take a write (R37, R38). -/
theorem writeReg_eq_next_of_ne {r : Reg} (hd : r ≠ .data) (hc : r ≠ .cmd) (v : Word) (s : State) :
    writeReg r v s = .next s := by
  cases r
  case data => exact absurd rfl hd
  case cmd => exact absurd rfl hc
  all_goals rfl

/-- The offsets of the registers R21 marks RO are aligned, lie in the page, and hold neither DATA nor CMD. -/
theorem regAt_of_readOnly_offset :
    ∀ offset ∈ [0x000, 0x004, 0x008, 0x00C, 0x018, 0x01C, 0x020, 0x024, 0x028, 0x02C, 0x030, 0x034, 0x038],
      offset ≤ 0xFFF ∧ offset % 4 = 0 ∧ regAt offset ≠ .data ∧ regAt offset ≠ .cmd := by decide

/-- A write to a register other than DATA and CMD changes nothing but the host's list (R37, R38). -/
theorem step_write_ignored {s : State} {offset : Nat} {v : Word} {rest : List HostEvent}
    (h : s.host = .write offset 4 v :: rest) (hp : offset ≤ 0xFFF) (ha : offset % 4 = 0)
    (hd : regAt offset ≠ .data) (hc : regAt offset ≠ .cmd) : step s = .next (s.withHost rest) := by
  rw [step_write_register h hp ha, writeReg_eq_next_of_ne hd hc]

/-- Settles O12: a write is ignored at an RO offset, found in the register map, and at a reserved one, where `regAt`
answers `reserved`; a read there answers what `readReg` gives for `reserved`. -/
theorem readOnlyAndReservedWritesAreIgnored : Obligations.ReadOnlyAndReservedWritesAreIgnored := by
  intro s offset rest
  constructor
  · rintro v h (hro | ⟨hlow, hhigh, ha⟩)
    · obtain ⟨hp, ha, hd, hc⟩ := regAt_of_readOnly_offset offset hro
      exact step_write_ignored h hp ha hd hc
    · have hr := regAt_reserved hlow
      exact step_write_ignored h (by omega) ha (by simp [hr]) (by simp [hr])
  · intro h hlow hhigh ha
    rw [step_read_register h (by omega) ha, regAt_reserved hlow]
    rfl

end Sys2Proof.Machine
end

section
/-! Reads at the port (20_memory.md R64): one buffer byte, what any read that is not refused can be, and O10, which
follows from the two. -/

namespace Sys2Proof.Machine

/-- What a register reads does not depend on the host's list. -/
@[simp] theorem readReg_withHost (s : State) (rest : List HostEvent) (r : Reg) :
    readReg (s.withHost rest) r = readReg s r := by cases r <;> rfl

/-- A 1-byte read in the PBUF window returns the byte there and changes nothing else (R64, R66). -/
theorem step_read_byte {s : State} {i : Nat} {rest : List HostEvent}
    (h : s.host = .read (0x20000000 + i) 1 :: rest) (hi : i < s.params.pbufBytes) :
    step s = .next ((s.withHost rest).logRead (.byte (Memory.read s.bp.pbuf i))) := by
  rw [step_cons h]
  simp only [perform, hostRead, withHost_params, locate_byte hi rfl, withHost_bp]

/-- A read that answers a next state has one of the two legal forms of R66; every other one is refused. -/
theorem form_of_step_read {s t : State} {offset n : Nat} {rest : List HostEvent}
    (h : s.host = .read offset n :: rest) (hs : step s = .next t) :
    (offset ≤ 0xFFF ∧ n = 4 ∧ offset % 4 = 0) ∨ (n = 1 ∧ ∃ i, i < s.params.pbufBytes ∧ offset = 0x20000000 + i) := by
  rw [step_cons h] at hs
  simp only [perform, hostRead] at hs
  cases hl : locate (s.withHost rest).params offset n with
  | error r => rw [hl] at hs; cases hs
  | ok target =>
    rcases locate_ok hl with ⟨hp, hn, ha, -⟩ | ⟨hlow, hhigh, hn, -⟩
    · exact Or.inl ⟨hp, hn, ha⟩
    · rw [withHost_params] at hhigh
      exact Or.inr ⟨hn, offset - 0x20000000, by omega, by omega⟩

/-- Settles O10: the read has a legal form, and each form's step gives the next state. -/
theorem readsHaveNoSideEffect : Obligations.ReadsHaveNoSideEffect := by
  intro s t offset n rest h hs
  rcases form_of_step_read h hs with ⟨hp, rfl, ha⟩ | ⟨rfl, i, hi, rfl⟩
  · rw [step_read_register h hp ha, readReg_withHost] at hs
    exact Or.inl ⟨rfl, ha, hp, (Host.Outcome.next.inj hs).symm⟩
  · rw [step_read_byte h hi] at hs
    exact Or.inr ⟨rfl, i, hi, rfl, (Host.Outcome.next.inj hs).symm⟩

end Sys2Proof.Machine
end

section
/-! Decoding as selection of a row of the opcode map (30_encoding.md R80, R86): a row is selected by its match and mask,
and a word no row selects is rejected. O3 and O5 follow. -/

namespace Sys2Proof

/-! ## A row's match and mask -/

/-- R86's mask of a row: the opcode's bits and the format's reserved bits. -/
def rowMask (f : Format) : Word := 0xFF000000#32 ||| reservedMask f

theorem opField_rowMask (f : Format) : opField (rowMask f) = BitVec.allOnes 8 := by cases f <;> decide

theorem rowMask_and_reservedMask (f : Format) : rowMask f &&& reservedMask f = reservedMask f := by
  cases f <;> decide

/-- Below the opcode, a row's mask has the format's reserved bits only. -/
theorem rowMask_and_reservedMask_z (f : Format) : rowMask f &&& reservedMask .z = reservedMask f := by
  cases f <;> decide

theorem opField_and_rowMask (c : Word) (f : Format) : opField (c &&& rowMask f) = opField c := by
  calc opField (c &&& rowMask f) = opField c &&& opField (rowMask f) := BitVec.extractLsb'_and
    _ = opField c := by rw [opField_rowMask, BitVec.and_allOnes]

/-- The opcode alone has no bit a format reserves. -/
theorem encodeZ_and_reservedMask (op : BitVec 8) (f : Format) : encodeZ op &&& reservedMask f = 0#32 := by
  have hz : encodeZ op &&& reservedMask .z = 0#32 := by
    refine BitVec.eq_of_getLsbD_eq (fun k hk => ?_)
    simp only [encodeZ, reservedMask]
    interval_cases k <;> simp
  rw [← rowMask_and_reservedMask_z, BitVec.and_comm (rowMask f), ← BitVec.and_assoc, hz, BitVec.zero_and]

/-- A row's mask leaves a row's match, its opcode alone (R86), exactly when the word has that opcode and no reserved
bit set (R80). -/
theorem and_rowMask_eq_encodeZ_iff (c : Word) (f : Format) (op : BitVec 8) :
    c &&& rowMask f = encodeZ op ↔ opField c = op ∧ c &&& reservedMask f = 0#32 := by
  constructor
  · intro h
    constructor
    · rw [← opField_and_rowMask c f, h, opField_encodeZ]
    · rw [← rowMask_and_reservedMask, ← BitVec.and_assoc, h, encodeZ_and_reservedMask]
  · rintro ⟨rfl, hz⟩
    rw [← opField_and_rowMask c f]
    apply word_of_z
    rw [BitVec.and_assoc, rowMask_and_reservedMask_z, hz]

/-! ## Decoding by rows -/

/-- A row builds commands of its own opcode only. -/
theorem opcode_build : ∀ r ∈ opcodeMap, ∀ c : Word, opcode (r.build c) = r.op := by
  intro r hr c
  simp only [opcodeMap, List.mem_cons, List.not_mem_nil, or_false] at hr
  rcases hr with rfl | rfl | rfl | rfl | rfl | rfl | rfl | rfl | rfl | rfl | rfl | rfl <;> rfl

/-- Rows with one opcode are one row. -/
theorem row_eq_of_op_eq {r q : OpRow} (hr : r ∈ opcodeMap) (hq : q ∈ opcodeMap) (h : r.op = q.op) : r = q := by
  have hfind := find?_of_row r hr
  rw [h, find?_of_row q hq] at hfind
  exact (Option.some.inj hfind).symm

/-- A word decodes to a command of a row's opcode exactly when the row's match and mask select the word and the command
is the one the row builds from it (R86). -/
theorem decode_eq_ok_iff_of_row {r : OpRow} (hr : r ∈ opcodeMap) {i : Instr} (hi : opcode i = r.op) (c : Word) :
    decode c = .ok i ↔ c &&& rowMask r.format = encodeZ r.op ∧ i = r.build c := by
  rw [and_rowMask_eq_encodeZ_iff]
  constructor
  · intro h
    obtain ⟨q, hq, hop, hz, rfl⟩ := decode_ok h
    obtain rfl : q = r := row_eq_of_op_eq hq hr ((opcode_build q hq c).symm.trans hi)
    exact ⟨⟨hop.symm, hz⟩, rfl⟩
  · rintro ⟨⟨hop, hz⟩, rfl⟩
    exact decode_row_ok hr hop hz

/-- The rows of the commands without an operand (R81, R86). -/
theorem row_mem_of_no_operand :
    ∀ i ∈ [Instr.nop, .clrerr, .tbClear, .tbMerge, .tbBuild, .bpClear, .bpRewind, .bpSetlen],
      { op := opcode i, format := .z, build := fun _ => i } ∈ opcodeMap := by
  simp [opcodeMap, opcode]

/-- A row without an operand builds one command, so its match and mask alone decide. -/
theorem decode_eq_ok_iff_of_no_operand (c : Word) :
    ∀ i ∈ [Instr.nop, .clrerr, .tbClear, .tbMerge, .tbBuild, .bpClear, .bpRewind, .bpSetlen],
      decode c = .ok i ↔ c &&& rowMask .z = encodeZ (opcode i) := fun i hi =>
  (decode_eq_ok_iff_of_row (row_mem_of_no_operand i hi) rfl c).trans (and_iff_left rfl)

/-- Settles O3: each clause is its row's instance of `decode_eq_ok_iff_of_row`, with the row's mask and match as its
literals. -/
theorem opcodeMapSelectsTheCommand : Obligations.OpcodeMapSelectsTheCommand := by
  intro c
  have hs (sym : Symbol) := decode_eq_ok_iff_of_row (r := ⟨0x11#8, .s, fun c => .tbLeaf (symField c)⟩)
    (by simp [opcodeMap]) (i := .tbLeaf sym) rfl c
  have hh (h : Nat) := decode_eq_ok_iff_of_row (r := ⟨0x14#8, .h, fun c => .tbRead (handleField c)⟩)
    (by simp [opcodeMap]) (i := .tbRead h) rfl c
  have hput (w : Nat) := decode_eq_ok_iff_of_row (r := ⟨0x21#8, .w, fun c => .bpPut (widthField c)⟩)
    (by simp [opcodeMap]) (i := .bpPut w) rfl c
  have hget (w : Nat) := decode_eq_ok_iff_of_row (r := ⟨0x22#8, .w, fun c => .bpGet (widthField c)⟩)
    (by simp [opcodeMap]) (i := .bpGet w) rfl c
  simp only [Instr.tbLeaf.injEq, Instr.tbRead.injEq, Instr.bpPut.injEq, Instr.bpGet.injEq] at hs hh hput hget
  have hz := decode_eq_ok_iff_of_no_operand c
  simp only [List.forall_mem_cons] at hz
  obtain ⟨hnop, hclrerr, htbClear, htbMerge, htbBuild, hbpClear, hbpRewind, hbpSetlen, -⟩ := hz
  exact ⟨hnop, hclrerr, htbClear, hs, htbMerge, htbBuild, hh, hbpClear, hput, hget, hbpRewind, hbpSetlen⟩

/-! ## Words that are no command -/

/-- The opcodes that are not reserved (R87). -/
theorem op_of_row : ∀ r ∈ opcodeMap, r.op.toNat ≤ 0x01 ∨ (0x10 ≤ r.op.toNat ∧ r.op.toNat ≤ 0x14) ∨
    (0x20 ≤ r.op.toNat ∧ r.op.toNat ≤ 0x24) := by decide

/-- An opcode in one of R87's reserved ranges is no row's. -/
theorem decode_reservedOp {c : Word} (h : (0x02 ≤ (opField c).toNat ∧ (opField c).toNat ≤ 0x0F) ∨
    (0x15 ≤ (opField c).toNat ∧ (opField c).toNat ≤ 0x1F) ∨ 0x25 ≤ (opField c).toNat) :
    decode c = .error .reservedOp := by
  refine decode_no_row (fun r hr hop => ?_)
  have := op_of_row r hr
  rw [hop] at this
  omega

/-- A word with the opcode of a row of format `f` and a reserved bit of `f` set is rejected (R81 to R84). -/
theorem decode_reservedBits {c : Word} {n : Nat} {f : Format}
    (hrow : ∃ r ∈ opcodeMap, r.op.toNat = n ∧ r.format = f) (hop : (opField c).toNat = n)
    (hm : c &&& reservedMask f ≠ 0#32) : decode c = .error .reservedBits := by
  obtain ⟨r, hr, hn, rfl⟩ := hrow
  exact decode_row_error hr (BitVec.eq_of_toNat_eq (hop.trans hn.symm)) hm

/-- The opcodes of format Z (R86). -/
theorem row_of_z : ∀ n ∈ [0x00, 0x01, 0x10, 0x12, 0x13, 0x20, 0x23, 0x24],
    ∃ r ∈ opcodeMap, r.op.toNat = n ∧ r.format = .z := by decide

end Sys2Proof

namespace Sys2Proof.Machine

/-- The error record written by `recordError` is the one `State.recorded` states (R172). -/
theorem withErrcode_recordError (s : State) (op : BitVec 8) (e : ErrKind) :
    s.withErrcode (recordError op e s.errcode) = s.recorded op (errCode e) := rfl

/-- A rejected word written to CMD records IllegalCommand with its own opcode, and does nothing else (R80). -/
theorem step_rejected {s : State} {c : Word} {rest : List HostEvent} (h : s.host = writeCmd c :: rest) {e : Reject}
    (hd : decode c = .error e) : step s = .next ((s.withHost rest).recorded (opField c) 0x10#8) := by
  rw [step_writeCmd h, runCommand_error hd, withErrcode_recordError]
  rfl

/-- Settles O5: each case of R87 is a word the decoder rejects. -/
theorem reservedWordsRaiseIllegalCommand : Obligations.ReservedWordsRaiseIllegalCommand := by
  rintro c s rest h (hop | hop | hop | ⟨hop, hm⟩ | ⟨hop, hm⟩ | ⟨hop, hm⟩ | ⟨hop | hop, hm⟩)
  · exact step_rejected h (decode_reservedOp (Or.inl hop))
  · exact step_rejected h (decode_reservedOp (Or.inr (Or.inl hop)))
  · exact step_rejected h (decode_reservedOp (Or.inr (Or.inr hop)))
  · exact step_rejected h (decode_reservedBits (f := .z) (row_of_z _ hop) rfl hm)
  · exact step_rejected h (decode_reservedBits (f := .s) (by decide) hop hm)
  · exact step_rejected h (decode_reservedBits (f := .h) (by decide) hop hm)
  · exact step_rejected h (decode_reservedBits (f := .w) (by decide) hop hm)
  · exact step_rejected h (decode_reservedBits (f := .w) (by decide) hop hm)

end Sys2Proof.Machine
end

section
/-! The control commands (40_control.md R100, R101): the words of a command without an operand, legal and illegal, and
STATUS.ERR, from which O20 and O21 follow. -/

namespace Sys2Proof.Machine

/-! ## Words -/

/-- The word of a command without an operand is its opcode alone (R81). -/
theorem decode_encodeZ_opcode :
    ∀ i ∈ [Instr.nop, .clrerr, .tbClear, .tbMerge, .tbBuild, .bpClear, .bpRewind, .bpSetlen],
      decode (encodeZ (opcode i)) = .ok i := fun i hi =>
  decode_row_ok (row_mem_of_no_operand i hi) (opField_encodeZ _) (encodeZ_and_reservedMask _ _)

/-- A row's opcode with a bit set that its format reserves raises IllegalCommand and does nothing else (R80). -/
theorem reservedBitsAreIllegal_of_row {r : OpRow} (hr : r ∈ opcodeMap) :
    ReservedBitsAreIllegal r.op (reservedMask r.format) := by
  intro c s hop hm
  rw [runCommand_error (decode_row_error hr hop hm), ← hop, ← opField, withErrcode_recordError]
  rfl

/-- R81's reserved bits 23:0, for each command without an operand. -/
theorem reservedBitsAreIllegal_of_no_operand {i : Instr}
    (hi : i ∈ [Instr.nop, .clrerr, .tbClear, .tbMerge, .tbBuild, .bpClear, .bpRewind, .bpSetlen]) :
    ReservedBitsAreIllegal (opcode i) 0x00FFFFFF#32 := reservedBitsAreIllegal_of_row (row_mem_of_no_operand i hi)

/-! ## STATUS.ERR -/

/-- A flag shows at its own bit and at no other. -/
theorem getLsbD_flagAt (b : Bool) {k : Nat} (hk : k < 32) (j : Nat) :
    (flagAt b k).getLsbD j = (b && decide (j = k)) := by
  cases b
  case false => simp [flagAt]
  case true =>
    rw [flagAt, if_pos rfl, ← BitVec.twoPow_eq, BitVec.getLsbD_twoPow]
    simp [hk, eq_comm]

/-- Bit 0 of STATUS is ERR (R24). -/
theorem status_bit_err (s : State) : (readReg s .status).getLsbD 0 = statusErr s := by
  simp only [readReg, statusWord, BitVec.getLsbD_or, getLsbD_flagAt, Nat.reduceLT]
  simp

/-- With no error held STATUS.ERR is 0 (R24, R25). -/
theorem statusErr_of_errcode_zero {s : State} (h : s.errcode = 0#32) : statusErr s = false := by
  rw [statusErr, h]
  decide

/-! ## The commands -/

/-- Settles O20: NOP raises no error and its effect is the state itself. -/
theorem nopChangesNothing : Obligations.NopChangesNothing :=
  ⟨decode_encodeZ_opcode .nop (by simp), reservedBitsAreIllegal_of_no_operand (i := .nop) (by simp),
    fun _ => exec_of_no_error rfl⟩

/-- Settles O21: CLRERR raises no error and its effect writes ERRCODE only. -/
theorem clrerrClearsOnlyTheErrorRecord : Obligations.ClrerrClearsOnlyTheErrorRecord := by
  refine ⟨decode_encodeZ_opcode .clrerr (by simp), reservedBitsAreIllegal_of_no_operand (i := .clrerr) (by simp),
    fun s => ⟨s.withErrcode 0#32, exec_of_no_error rfl, rfl, ?_⟩⟩
  rw [status_bit_err]
  exact statusErr_of_errcode_zero (withErrcode_errcode s 0#32)

end Sys2Proof.Machine
end

section
/-! The rules of TB_CLEAR, TB_LEAF and TB_READ (41_tree_builder.md R113, R114, R120): the words of the two commands with
an operand, and from them O22, O23 and O32. -/

namespace Sys2Proof.Machine

/-! ## Words and errors -/

/-- The row of TB_LEAF (R86). -/
theorem tbLeaf_row_mem : { op := 0x11#8, format := .s, build := fun c => .tbLeaf (symField c) } ∈ opcodeMap := by
  simp [opcodeMap]

/-- The row of TB_READ (R86). -/
theorem tbRead_row_mem : { op := 0x14#8, format := .h, build := fun c => .tbRead (handleField c) } ∈ opcodeMap := by
  simp [opcodeMap]

theorem decode_encodeS_tbLeaf (sym : Symbol) : decode (encodeS 0x11#8 sym) = .ok (.tbLeaf sym) := by
  have hdecode := decode_row_ok tbLeaf_row_mem (opField_encodeS 0x11#8 sym) (reserved_encodeS 0x11#8 sym)
  simpa only [symField_encodeS] using hdecode

theorem decode_encodeLow_tbRead {h : Nat} (hh : h < 512) : decode (encodeLow 0x14#8 h) = .ok (.tbRead h) := by
  have hdecode := decode_row_ok tbRead_row_mem (opField_encodeLow 0x14#8 hh) (reserved_encodeLow_h 0x14#8 hh)
  simpa only [handleField_encodeLow 0x14#8 hh] using hdecode

/-- A failed command's next state, as the statements write it (R172). -/
theorem exec_of_error_recorded {i : Instr} {s : State} {e : ErrKind} (h : firstError i s = some e) :
    exec i s = .next (s.recorded (opcode i) (errCode e)) := by
  rw [exec_of_error h, withErrcode_recordError]

/-! ## TB_CLEAR -/

/-- Settles O22: TB_CLEAR raises no error and its effect is the empty unit. -/
theorem tbClearEmptiesTheTreeBuilder : Obligations.TbClearEmptiesTheTreeBuilder :=
  ⟨decode_encodeZ_opcode .tbClear (by simp), reservedBitsAreIllegal_of_no_operand (i := .tbClear) (by simp),
    fun _ => exec_of_no_error rfl⟩

/-! ## TB_LEAF -/

/-- TB_LEAF's three checks, in order (R114, R175). -/
theorem firstError_tbLeaf (sym : Symbol) (s : State) :
    firstError (.tbLeaf sym) s =
      if s.data = 0#32 then some .badOperand
      else if s.tb.merged = true then some .sequenceError
      else if sym ∈ s.tb.loaded then some .duplicateSymbol
      else none := by
  simp only [firstError, toNat_eq_zero_iff]

/-- Settles O23: each failing check is the first error, and with none the effect is `addLeaf`, whose handle is NCOUNT,
at most 255 while a symbol can still be loaded. -/
theorem tbLeafLoadsOneLeaf : Obligations.TbLeafLoadsOneLeaf := by
  refine ⟨decode_encodeS_tbLeaf, reservedBitsAreIllegal_of_row tbLeaf_row_mem, fun s sym hinv => ⟨?_, ?_, ?_, ?_⟩⟩
  · intro hzero
    exact exec_of_error_recorded (e := .badOperand) (by rw [firstError_tbLeaf, if_pos hzero])
  · intro hw hmerged
    exact exec_of_error_recorded (e := .sequenceError) (by rw [firstError_tbLeaf, if_neg hw, if_pos hmerged])
  · intro hw hmerged hloaded
    exact exec_of_error_recorded (e := .duplicateSymbol) (by simp [firstError_tbLeaf, hw, hmerged, hloaded])
  · intro hw hmerged hloaded
    have hcount := ncount_le_of_loadable hinv hmerged hloaded
    exact ⟨hcount, s.tb.nextHandle, insertSymbol sym s.tb.loaded, nextHandle_toNat (by omega),
      fun x => mem_insertSymbol sym x s.tb.loaded,
      exec_of_no_error (by simp [firstError_tbLeaf, hw, hmerged, hloaded])⟩

/-! ## TB_READ -/

/-- TB_READ of a slot in use shows the node there (R120). -/
theorem exec_tbRead_of_inUse {s : State} {h : Nat} {n : Node} (hn : s.tb.nodes[h]? = some n) :
    exec (.tbRead h) s = .next (s.withTb (s.tb.showNode n)) := by
  obtain ⟨hlt, -⟩ := List.getElem?_eq_some_iff.1 hn
  rw [exec_of_no_error (by simp [firstError, hlt])]
  simp only [effect, hn]

/-- R36's layout of a leaf's NODE_LINK: LEAF 31, reserved 30:26, SYM 25:18, 0 below. -/
theorem linkWord_leaf_fields (sym : Symbol) (w : Word) :
    (linkWord (.leaf sym w)).extractLsb' 31 1 = 1#1 ∧ (linkWord (.leaf sym w)).extractLsb' 26 5 = 0#5 ∧
      (linkWord (.leaf sym w)).extractLsb' 18 8 = sym ∧ (linkWord (.leaf sym w)).extractLsb' 0 18 = 0#18 := by
  refine ⟨?_, ?_, ?_, ?_⟩
  all_goals
    refine BitVec.eq_of_getLsbD_eq (fun k hk => ?_)
    simp only [linkWord]
    interval_cases k <;> simp

/-- R36's layout of an internal node's NODE_LINK: 0 in 31:18, RIGHT 17:9, LEFT 8:0. -/
theorem linkWord_internal_fields (w : Word) (l r : Handle) :
    (linkWord (.internal w l r)).extractLsb' 18 14 = 0#14 ∧ (linkWord (.internal w l r)).extractLsb' 9 9 = r ∧
      (linkWord (.internal w l r)).extractLsb' 0 9 = l := by
  refine ⟨?_, ?_, ?_⟩
  all_goals
    refine BitVec.eq_of_getLsbD_eq (fun k hk => ?_)
    simp only [linkWord]
    interval_cases k <;> simp

/-- Settles O32: a handle not in use is the first error; the node at one in use is shown, its links in R36's layout. -/
theorem tbReadShowsTheNode : Obligations.TbReadShowsTheNode := by
  refine ⟨fun h => decode_encodeLow_tbRead, reservedBitsAreIllegal_of_row tbRead_row_mem, ?_, ?_, ?_⟩
  · intro s h hunused
    exact exec_of_error_recorded (e := .badOperand) (if_pos hunused)
  · intro s h sym w hn
    obtain ⟨hleaf, hreserved, hsym, hlow⟩ := linkWord_leaf_fields sym w
    exact ⟨linkWord (.leaf sym w), hleaf, hreserved, hsym, hlow, exec_tbRead_of_inUse hn⟩
  · intro s h w l r hn
    obtain ⟨hhigh, hright, hleft⟩ := linkWord_internal_fields w l r
    exact ⟨linkWord (.internal w l r), hhigh, hright, hleft, exec_tbRead_of_inUse hn⟩

end Sys2Proof.Machine
end

section
/-! The container and the merge step (41_tree_builder.md R111, R112, R115), and TB_MERGE and TB_BUILD, which run it
(R116, R118): O24, O25, O26 and O29. -/

namespace Sys2Proof.Machine

/-! ## The container and the merge step -/

/-- Settles O24: `insert` is the appending update, and an extraction takes the candidate tieSelect picks. -/
theorem containerPrimitivesFollowTheirRules : Obligations.ContainerPrimitivesFollowTheirRules := by
  refine ⟨fun _ _ => rfl, fun t hne => ?_⟩
  obtain ⟨hattained, hleast⟩ := minWeight_spec hne
  obtain ⟨e, hextract, -, -, hpick⟩ := extractMin_spec t hne
  refine ⟨minWeight t.pq, e, candidates t.pq, hattained, hleast, rfl, tieSelect_lt t.hist (candidates_ne_nil hne),
    ?_, hpick, hextract⟩
  intro hone
  obtain ⟨c, hc⟩ := List.length_eq_one_iff.1 hone
  rw [hc, tieSelect_single]

/-- Two weights that fit together are the new node's weight (R115). -/
theorem toNat_ofNat_weight {n : Nat} (h : n ≤ 4294967295) : (BitVec.ofNat 32 n).toNat = n := by
  rw [BitVec.toNat_ofNat]; exact Nat.mod_eq_of_lt (by omega)

/-- In a unit that meets the invariant the next handle is NCOUNT and does not wrap (R10, R41). -/
theorem nextHandle_toNat_of_inv {t : TreeUnit} (h : t.Inv) : t.nextHandle.toNat = t.nodes.length := by
  obtain ⟨hnodes, -⟩ := h.capacity
  exact nextHandle_toNat (by unfold Config.nodeCap at hnodes; omega)

/-- Settles O25: the merge step is `mergeOf` of the two extracted entries. -/
theorem mergeStepCombinesTheTwoExtracted : Obligations.MergeStepCombinesTheTwoExtracted := by
  intro t hinv h2
  obtain ⟨a, b, u, v, ha, hb, hstep, -⟩ := mergeStep_extracts t h2
  exact ⟨a, b, u, v, ha, hb, fun hfit =>
    ⟨_, t.nextHandle, toNat_ofNat_weight hfit, nextHandle_toNat_of_inv hinv, hstep⟩⟩

/-! ## TB_MERGE -/

/-- TB_MERGE of one entry makes it the root (R116). -/
theorem exec_tbMerge_of_single {s : State} {e : Entry} (h : s.tb.pq = [e]) :
    exec .tbMerge s = .next (s.withTb { s.tb with root := e.handle, rootv := true }) := by
  rw [exec_of_no_error (by simp [firstError, h]), effect, if_pos (by rw [h]; rfl), markRoot_of_single s.tb h]

/-- On two or more entries TB_MERGE's one error is a sum that does not fit (R116). -/
theorem firstError_tbMerge_of_two {s : State} (h2 : 2 ≤ s.tb.pq.length) :
    firstError .tbMerge s = if 4294967295 < twoLowestSum s.tb.pq then some .weightOverflow else none := by
  simp [firstError, two_le_ne_nil h2, h2]

/-- A merge takes two entries out and puts one in. -/
theorem mergeOf_pq_length {t : TreeUnit} {a b : Entry} (ha : a ∈ t.pq) (hb : b ∈ t.pq.erase a) :
    (mergeOf t a b).pq.length + 1 = t.pq.length := by
  have hlen := (erase_erase_perm ha hb).length_eq
  simp only [mergeOf, List.length_append, List.length_cons, List.length_nil] at hlen ⊢
  omega

/-- A merge of the only two entries leaves the new node alone in the container. -/
theorem mergeOf_pq_of_two {t : TreeUnit} {a b : Entry} (ha : a ∈ t.pq) (hb : b ∈ t.pq.erase a) (h : t.pq.length = 2) :
    (mergeOf t a b).pq =
      [{ weight := BitVec.ofNat 32 (a.weight.toNat + b.weight.toNat), handle := t.nextHandle }] := by
  have hlen := (erase_erase_perm ha hb).length_eq
  have hrest : (t.pq.erase a).erase b = [] := List.length_eq_zero_iff.1 (by simp only [List.length_cons] at hlen; omega)
  simp [mergeOf, hrest]

/-- TB_MERGE of two or more entries, once their sum fits: the merge, and the root exactly when one entry is left
(R116). -/
theorem effect_tbMerge_of_two {s : State} {a b : Entry} (h2 : 2 ≤ s.tb.pq.length) (ha : a ∈ s.tb.pq)
    (hb : b ∈ s.tb.pq.erase a) (hstep : s.tb.mergeStep = mergeOf s.tb a b) :
    effect .tbMerge s = s.withTb { mergeOf s.tb a b with
      root := if s.tb.pq.length = 2 then s.tb.nextHandle else s.tb.root
      rootv := if s.tb.pq.length = 2 then true else s.tb.rootv } := by
  have hlen := mergeOf_pq_length ha hb
  rw [effect, if_neg (by omega), hstep]
  by_cases hlast : s.tb.pq.length = 2
  · rw [if_pos (by omega), if_pos hlast, if_pos hlast, markRoot_of_single _ (mergeOf_pq_of_two ha hb hlast)]
  · rw [if_neg (by omega), if_neg hlast, if_neg hlast]
    rfl

/-- Settles O26: a sum past 2^32 - 1 is twoLowestSum's, whichever entries tieSelect picks; otherwise the effect is the
merge step, with the root marked on a last entry. -/
theorem tbMergeMergesTheTwoLightest : Obligations.TbMergeMergesTheTwoLightest := by
  refine ⟨decode_encodeZ_opcode .tbMerge (by simp), reservedBitsAreIllegal_of_no_operand (i := .tbMerge) (by simp),
    fun s hinv => ⟨fun hempty => ?_, fun e => exec_tbMerge_of_single, fun h2 => ?_⟩⟩
  · exact exec_of_error_recorded (e := .emptyAlphabet) (if_pos hempty)
  · obtain ⟨a, b, u, v, hu, hv, hstep, ha, hb, hmin, hmin2⟩ := mergeStep_extracts s.tb h2
    have herr := firstError_tbMerge_of_two h2
    rw [twoLowestSum_eq ha hb hmin hmin2] at herr
    refine ⟨a, b, u, v, hu, hv, ha, hmin, hb, hmin2, fun hover => ?_, fun hfit => ?_⟩
    · exact exec_of_error_recorded (e := .weightOverflow) (by rw [herr, if_pos hover])
    · refine ⟨_, s.tb.nextHandle, toNat_ofNat_weight hfit, nextHandle_toNat_of_inv hinv, ?_⟩
      rw [exec_of_no_error (by rw [herr, if_neg (by omega)]), effect_tbMerge_of_two h2 ha hb hstep]
      rfl

/-! ## TB_BUILD -/

/-- What any number of merges makes of a unit: some internal nodes and some history appended, the container shorter by
one entry for each node, MERGED set if there was one, and nothing else changed (R115, R118). -/
def MergedFrom (t u : TreeUnit) : Prop :=
  ∃ (new : List Node) (hist : List PQOp), (∀ n ∈ new, n.isLeaf = false) ∧ u.pq.length + new.length = t.pq.length ∧
    u = { t with
      nodes := t.nodes ++ new, pq := u.pq, hist := t.hist ++ hist, merged := t.merged || decide (1 ≤ new.length) }

theorem MergedFrom.refl (t : TreeUnit) : MergedFrom t t := ⟨[], [], by simp, rfl, by simp⟩

/-- One more merge appends its node and its three container operations. -/
theorem MergedFrom.merge {t u : TreeUnit} (h : MergedFrom t u) {a b : Entry} (ha : a ∈ u.pq) (hb : b ∈ u.pq.erase a) :
    MergedFrom t (mergeOf u a b) := by
  obtain ⟨new, hist, hinternal, hlen, hu⟩ := h
  have hmerge := mergeOf_pq_length ha hb
  refine ⟨new ++ [.internal (BitVec.ofNat 32 (a.weight.toNat + b.weight.toNat)) a.handle b.handle],
    hist ++ [.ext a, .ext b, .ins ⟨BitVec.ofNat 32 (a.weight.toNat + b.weight.toNat), u.nextHandle⟩], ?_, ?_, ?_⟩
  · simpa [Node.isLeaf, or_imp, forall_and] using hinternal
  · rw [List.length_append, List.length_singleton]; omega
  · generalize u.pq = pq at hu
    subst hu
    simp [mergeOf]

/-- TB_BUILD's loop is a run of merges (R118). -/
theorem mergedFrom_mergeLoop {t : TreeUnit} (hfit : totalWeight t.pq ≤ maxWord) (fuel : Nat) :
    MergedFrom t (TreeUnit.mergeLoop fuel t) :=
  mergeLoop_induction (P := MergedFrom t) (fun _ _ _ h ha hb _ _ _ => h.merge ha hb) fuel t (.refl t) hfit

/-- Everything a build changes (R118): one internal node for each entry but one, the container, the history, MERGED, and
the root. -/
theorem build_eq {t : TreeUnit} (hne : t.pq ≠ []) (hfit : totalWeight t.pq ≤ maxWord) :
    ∃ (new : List Node) (hist : List PQOp) (e : Entry),
      new.length = t.pq.length - 1 ∧ (∀ n ∈ new, n.isLeaf = false) ∧
      t.build = { t with
        nodes := t.nodes ++ new, pq := [e], hist := t.hist ++ hist,
        merged := t.merged || decide (2 ≤ t.pq.length), root := e.handle, rootv := true } := by
  obtain ⟨e, he⟩ := List.length_eq_one_iff.1 (mergeLoop_length t.pq.length t hne (by omega))
  obtain ⟨new, hist, hinternal, hlen, hloop⟩ := mergedFrom_mergeLoop hfit t.pq.length
  rw [he] at hloop hlen
  rw [List.length_singleton] at hlen
  refine ⟨new, hist, e, by omega, hinternal, ?_⟩
  have hmerged : (2 ≤ t.pq.length) = (1 ≤ new.length) := by rw [eq_iff_iff]; omega
  rw [TreeUnit.build, markRoot_of_single _ he, hloop]
  simp only [hmerged]

/-- TB_BUILD on a container whose total fits (R118). -/
theorem exec_tbBuild_of_fits {s : State} (hne : s.tb.pq ≠ []) (hfit : totalWeight s.tb.pq ≤ maxWord) :
    exec .tbBuild s = .next (s.withTb s.tb.build) :=
  exec_of_no_error (by rw [firstError, if_neg hne, if_neg (Nat.not_lt.2 hfit)])

/-- TB_BUILD on two or more entries is a merge step and then TB_BUILD again (R118). -/
theorem exec_tbBuild_mergeStep {s : State} (h2 : 2 ≤ s.tb.pq.length) (hfit : totalWeight s.tb.pq ≤ maxWord) :
    exec .tbBuild s = exec .tbBuild (s.withTb s.tb.mergeStep) := by
  obtain ⟨a, b, hstep, ha, hb, -, -⟩ := mergeStep_spec s.tb h2
  have htotal : totalWeight s.tb.mergeStep.pq = totalWeight s.tb.pq := by
    rw [hstep, mergeOf_total ha hb ((pair_le_total ha hb).trans hfit)]
  have hne : s.tb.mergeStep.pq ≠ [] := by
    refine List.ne_nil_of_length_pos ?_
    rw [mergeStep_pq_length s.tb h2]
    omega
  rw [exec_tbBuild_of_fits (two_le_ne_nil h2) hfit,
    exec_tbBuild_of_fits (s := s.withTb s.tb.mergeStep) hne (htotal.trans_le hfit), withTb_tb, build_mergeStep s.tb h2]
  rfl

/-- Settles O29: the two checks are the first errors; otherwise the effect is `build`, which satisfies the recursion and
whose loop is a run of merges down to one entry. -/
theorem tbBuildMergesUntilOneRootRemains : Obligations.TbBuildMergesUntilOneRootRemains := by
  refine ⟨decode_encodeZ_opcode .tbBuild (by simp), reservedBitsAreIllegal_of_no_operand (i := .tbBuild) (by simp),
    fun s => ⟨fun hempty => ?_, fun hover => ?_, fun hfit => ⟨fun e he => ?_, fun h2 => ?_, fun hne => ?_⟩⟩⟩
  · exact exec_of_error_recorded (e := .emptyAlphabet) (if_pos hempty)
  · have hne : s.tb.pq ≠ [] := by rintro h; simp [h] at hover
    exact exec_of_error_recorded (e := .weightOverflow) ((if_neg hne).trans (if_pos hover))
  · rw [exec_tbBuild_of_fits (by simp [he]) hfit, build_single s.tb he, markRoot_of_single s.tb he]
    rfl
  · exact exec_tbBuild_mergeStep h2 hfit
  · obtain ⟨new, hist, e, hlen, hinternal, hbuild⟩ := build_eq hne hfit
    refine ⟨new, hist, e, hlen, hinternal, ?_⟩
    rw [exec_tbBuild_of_fits hne hfit, hbuild]
    rfl

end Sys2Proof.Machine
end

section
/-! The rules of the bit packer commands (42_bit_packer.md R140 to R144): the words of the two commands with a width, the
views STATUS.RD_END and ACC, and from them O36 to O40. -/

namespace Sys2Proof.Machine

/-! ## Words -/

/-- The row of BP_PUT (R86). -/
theorem bpPut_row_mem : { op := 0x21#8, format := .w, build := fun c => .bpPut (widthField c) } ∈ opcodeMap := by
  simp [opcodeMap]

/-- The row of BP_GET (R86). -/
theorem bpGet_row_mem : { op := 0x22#8, format := .w, build := fun c => .bpGet (widthField c) } ∈ opcodeMap := by
  simp [opcodeMap]

/-- A word of format W, a row's opcode over a width, decodes to the command the row builds from the width alone (R82). -/
theorem decode_encodeLow_of_width_row {op : BitVec 8} {f : Nat → Instr}
    (hrow : { op := op, format := .w, build := fun c => f (widthField c) } ∈ opcodeMap) {w : Nat} (hw : w < 64) :
    decode (encodeLow op w) = .ok (f w) := by
  have hdecode := decode_row_ok hrow (opField_encodeLow op (hw.trans (by decide))) (reserved_encodeLow_w op hw)
  simpa only [widthField_encodeLow op hw] using hdecode

/-! ## Views -/

/-- Bit 4 of STATUS is RD_END (R24). -/
theorem status_bit_rdEnd (s : State) : (readReg s .status).getLsbD 4 = statusRdEnd s := by
  simp only [readReg, statusWord, BitVec.getLsbD_or, getLsbD_flagAt, Nat.reduceLT]
  simp

/-- ACC of an empty stream is 0 (R31). -/
theorem accWord_empty : accWord BitPacker.empty = 0#32 := by decide

/-! ## BP_CLEAR and BP_REWIND -/

/-- Settles O36: BP_CLEAR raises no error and its effect is the empty unit, whose buffer has no cell. -/
theorem bpClearEmptiesTheBitPacker : Obligations.BpClearEmptiesTheBitPacker := by
  refine ⟨decode_encodeZ_opcode .bpClear (by simp), reservedBitsAreIllegal_of_no_operand (i := .bpClear) (by simp),
    fun s => ⟨[], s.withBp BitPacker.empty, rfl, exec_of_no_error rfl, Memory.read_nil, accWord_empty, ?_,
      padding_empty rfl⟩⟩
  rw [status_bit_rdEnd]
  rfl

/-- Settles O39: BP_REWIND raises no error and its effect is `rewind`. -/
theorem bpRewindZeroesTheReadPosition : Obligations.BpRewindZeroesTheReadPosition :=
  ⟨decode_encodeZ_opcode .bpRewind (by simp), reservedBitsAreIllegal_of_no_operand (i := .bpRewind) (by simp),
    fun _ => exec_of_no_error rfl⟩

/-! ## BP_PUT -/

/-- A width that is neither 0 nor above 32 (R85). -/
theorem not_illegal_width {w : Nat} (h1 : 1 ≤ w) (h32 : w ≤ 32) : ¬(w = 0 ∨ 32 < w) := by omega

/-- A position past the last bit of a stream of e bits lies before the byte end exactly when it is in the byte of that last
bit, the final byte (R141). -/
theorem lt_byteEnd_iff {e q : Nat} (he : 1 ≤ e) (hq : e ≤ q) : q < byteEnd e ↔ q / 8 = (e - 1) / 8 := by
  unfold byteEnd
  omega

/-- What appending a field does to every position, with the padding told by the final byte's index (R141). -/
theorem streamBit_append_fieldBits {b : BitPacker} (hm : Memory.wf b.pbuf) (v : Word) {w : Nat} (hw : 1 ≤ w) (q : Nat) :
    streamBit (b.append (fieldBits v w)).pbuf q =
      if q < b.bitcnt then streamBit b.pbuf q
      else if q < b.bitcnt + w then v.getLsbD (w - 1 - (q - b.bitcnt))
      else if q / 8 = (b.bitcnt + w - 1) / 8 then false
      else streamBit b.pbuf q := by
  rw [streamBit_append hm, fieldBits_length]
  by_cases hold : q < b.bitcnt
  · rw [if_pos hold, if_pos hold]
  rw [if_neg hold, if_neg hold]
  by_cases hnew : q < b.bitcnt + w
  · rw [if_pos hnew, if_pos hnew, fieldBits_getD v (by omega)]
  · simp only [if_neg hnew, lt_byteEnd_iff (e := b.bitcnt + w) (by omega) (Nat.le_of_not_lt hnew)]

/-- Settles O37: the two checks are the first errors; otherwise the effect is `append` of the field's bits. -/
theorem bpPutAppendsTheField : Obligations.BpPutAppendsTheField := by
  refine ⟨fun _ => decode_encodeLow_of_width_row bpPut_row_mem, reservedBitsAreIllegal_of_row bpPut_row_mem,
    fun s w hm => ⟨fun hillegal => ?_, fun h1 h32 hfull => ?_, fun h1 h32 hfits => ?_⟩⟩
  · exact exec_of_error_recorded (e := .badOperand) (if_pos hillegal)
  · exact exec_of_error_recorded (e := .capacityExceeded)
      ((if_neg (not_illegal_width h1 h32)).trans (if_pos hfull))
  · have hexec : exec (.bpPut w) s = .next (s.withBp (s.bp.append (fieldBits s.data w))) :=
      exec_of_no_error ((if_neg (not_illegal_width h1 h32)).trans (if_neg (Nat.not_lt.2 hfits)))
    refine ⟨(s.bp.append (fieldBits s.data w)).pbuf, ?_, streamBit_append_fieldBits hm s.data h1, fun i hi => ?_⟩
    · simpa only [State.withBp, BitPacker.append, fieldBits_length] using hexec
    · refine read_append_other s.bp (fieldBits s.data w) i ?_
      rw [fieldBits_length]
      omega

/-! ## BP_GET -/

/-- Settles O38: the two checks are the first errors; otherwise the effect is `take`. -/
theorem bpGetReadsTheNextField : Obligations.BpGetReadsTheNextField := by
  refine ⟨fun _ => decode_encodeLow_of_width_row bpGet_row_mem, reservedBitsAreIllegal_of_row bpGet_row_mem,
    fun s w => ⟨fun hillegal => ?_, fun h1 h32 hpast => ?_, fun h1 h32 hin => ?_⟩⟩
  · exact exec_of_error_recorded (e := .badOperand) (if_pos hillegal)
  · exact exec_of_error_recorded (e := .bitRequestOutOfRange)
      ((if_neg (not_illegal_width h1 h32)).trans (if_pos hpast))
  · exact ⟨(s.bp.take w).result,
      exec_of_no_error ((if_neg (not_illegal_width h1 h32)).trans (if_neg (Nat.not_lt.2 hin))),
      take_result_getLsbD s.bp h32⟩

/-! ## BP_SETLEN -/

/-- What setting the count to n does to every position: zeros from n up to the capacity (R144). -/
theorem streamBit_setLength {b : BitPacker} (hm : Memory.wf b.pbuf) {n capacity : Nat} (hn : n ≤ capacity) (q : Nat) :
    streamBit (b.setLength n capacity).pbuf q = if n ≤ q ∧ q < capacity then false else streamBit b.pbuf q := by
  rw [BitPacker.setLength, streamBit_writeBits hm, List.length_replicate, getD_replicate_false, Nat.add_sub_of_le hn]

/-- Setting the count to n leaves the bytes before the one that holds position n (R144). -/
theorem read_setLength_of_lt (b : BitPacker) {n i : Nat} (capacity : Nat) (hi : i < n / 8) :
    Memory.read (b.setLength n capacity).pbuf i = Memory.read b.pbuf i :=
  read_writeBits_other b.pbuf n i _ (fun q hq _ => by omega)

/-- Settles O40: the check is the first error; otherwise the effect is `setLength`. -/
theorem bpSetlenSetsTheCountAndZeroesTheRest : Obligations.BpSetlenSetsTheCountAndZeroesTheRest := by
  refine ⟨decode_encodeZ_opcode .bpSetlen (by simp), reservedBitsAreIllegal_of_no_operand (i := .bpSetlen) (by simp),
    fun s hm => ⟨fun hpast => ?_, fun hfits => ?_⟩⟩
  · exact exec_of_error_recorded (e := .badOperand) (if_pos hpast)
  · exact ⟨(s.bp.setLength s.data.toNat s.params.capacityBits).pbuf,
      s.withBp (s.bp.setLength s.data.toNat s.params.capacityBits), rfl,
      exec_of_no_error (if_neg (Nat.not_lt.2 hfits)), padding_setLength hm s.data.toNat,
      streamBit_setLength hm hfits, fun _ => read_setLength_of_lt s.bp s.params.capacityBits⟩

end Sys2Proof.Machine
end

section
/-! A failed command changes the error record only (60_exceptions.md R172): the lemma for a word that decodes to no
command, beside `exec_of_error_recorded` for a decoded one, and O17 from the two. -/

namespace Sys2Proof.Machine

/-- A word that decodes to no command only records IllegalCommand with its own OP (R80, R172). -/
theorem runCommand_error_recorded {c : Word} {r : Reject} (h : decode c = .error r) (s : State) :
    runCommand c s = .next (s.recorded (opField c) (errCode .illegalCommand)) := by
  rw [runCommand_error h, withErrcode_recordError]

/-- Settles O17: `exec` answers `raise` of the first error, and a rejected word `raise` of IllegalCommand; each writes
the record that `State.recorded` states. -/
theorem failedCommandOnlyRecordsTheFirstError : Obligations.FailedCommandOnlyRecordsTheFirstError :=
  ⟨fun _ _ _ hfails => exec_of_error_recorded hfails, fun _ s _ hrejected => runCommand_error_recorded hrejected s⟩

end Sys2Proof.Machine
end

section
/-! The round trip of a command word (30_encoding.md R80 to R86): every row's word is its format's, so decoding and
encoding undo each other, and no word selects two rows. O1, O2, O4 and O6. -/

namespace Sys2Proof

/-- Settles O1: each command's word decodes by the command's own row, with the operand read back from its field. -/
theorem decodeOfEncodeIsIdentity : Obligations.DecodeOfEncodeIsIdentity := by
  have hz := Machine.decode_encodeZ_opcode
  intro i hwf
  cases i with
  | nop => exact hz .nop (by simp)
  | clrerr => exact hz .clrerr (by simp)
  | tbClear => exact hz .tbClear (by simp)
  | tbLeaf sym => exact Machine.decode_encodeS_tbLeaf sym
  | tbMerge => exact hz .tbMerge (by simp)
  | tbBuild => exact hz .tbBuild (by simp)
  | tbRead h => exact Machine.decode_encodeLow_tbRead (lt_of_wellFormed_h hwf)
  | bpClear => exact hz .bpClear (by simp)
  | bpPut w => exact Machine.decode_encodeLow_of_width_row Machine.bpPut_row_mem (lt_of_wellFormed_put hwf)
  | bpGet w => exact Machine.decode_encodeLow_of_width_row Machine.bpGet_row_mem (lt_of_wellFormed_get hwf)
  | bpRewind => exact hz .bpRewind (by simp)
  | bpSetlen => exact hz .bpSetlen (by simp)

/-! ## The word of a row -/

/-- The word a format makes of an opcode and of the operand field of `c` (R81 to R84). -/
def formatWord (op : BitVec 8) (c : Word) : Format → Word
  | .z => encodeZ op
  | .w => encodeLow op (widthField c)
  | .s => encodeS op (symField c)
  | .h => encodeLow op (handleField c)

/-- A word without a reserved bit set is its opcode and its operand field. -/
theorem formatWord_opField {c : Word} {f : Format} (h : c &&& reservedMask f = 0#32) :
    formatWord (opField c) c f = c := by
  cases f with
  | z => exact (word_of_z h).symm
  | w => exact (word_of_w h).symm
  | s => exact (word_of_s h).symm
  | h => exact (word_of_h h).symm

theorem widthField_le (c : Word) : widthField c ≤ 63 :=
  Nat.le_of_lt_succ (c.extractLsb' 0 6).isLt

theorem handleField_le (c : Word) : handleField c ≤ 511 :=
  Nat.le_of_lt_succ (c.extractLsb' 0 9).isLt

/-- A row builds well-formed commands, and their word is the row's format applied to the row's opcode. -/
theorem encode_build : ∀ r ∈ opcodeMap, ∀ c : Word,
    (r.build c).wellFormed = true ∧ encode (r.build c) = formatWord r.op c r.format := by
  have hw := widthField_le
  have hh := handleField_le
  simp [opcodeMap, Instr.wellFormed, encode, formatWord, hw, hh]

/-- Settles O2: the word is that of its row's format, and so is the word of the command the row builds. -/
theorem encodeOfDecodeIsIdentity : Obligations.EncodeOfDecodeIsIdentity := by
  intro c i hd
  obtain ⟨r, hr, hop, hz, rfl⟩ := decode_ok hd
  obtain ⟨hwf, hword⟩ := encode_build r hr c
  exact ⟨hwf, by rw [hword, hop, formatWord_opField hz]⟩

/-- Settles O4: a word a row selects has the row's opcode, and no two rows have one opcode. -/
theorem noWordSelectsTwoRows : Obligations.NoWordSelectsTwoRows := by
  intro c
  have hdistinct : opcodeMap.Pairwise (fun a b : OpRow => a.op ≠ b.op) := by decide
  refine hdistinct.imp (fun {a b} hne ⟨ha, hb⟩ => hne ?_)
  obtain ⟨hopa, -⟩ := (and_rowMask_eq_encodeZ_iff c a.format a.op).1 ha
  obtain ⟨hopb, -⟩ := (and_rowMask_eq_encodeZ_iff c b.format b.op).1 hb
  exact hopa.symm.trans hopb

/-- Settles O6: each word is the word of its command, and decodes back to it. -/
theorem writtenOutWordsDecode : Obligations.WrittenOutWordsDecode :=
  have h := decodeOfEncodeIsIdentity
  ⟨h .nop rfl, h .clrerr rfl, h .tbClear rfl, h (.tbLeaf 0x41#8) rfl, h .tbMerge rfl, h .tbBuild rfl,
    h (.tbRead 511) rfl, h .bpClear rfl, h (.bpPut 32) rfl, h (.bpGet 1) rfl, h .bpRewind rfl, h .bpSetlen rfl⟩

end Sys2Proof
end

section
/-! The invariant of the whole machine (10_state.md R46, R48, 60_exceptions.md R170): the reset state meets it and every
step keeps it. O53 and O54. -/

namespace Sys2Proof.Machine

/-- Reset meets the invariant whatever the legal capacity. -/
theorem resetWith_inv {p : Params} (h : p.Legal) : (State.resetWith p).Inv :=
  ⟨h, empty_inv, bitPackerEmpty_inv p, Or.inl rfl⟩

/-- Settles O53: both units are empty, and the empty buffer reads 0 everywhere. -/
theorem resetMeetsTheInvariant : Obligations.ResetMeetsTheInvariant :=
  ⟨fun _ hp => ⟨resetWith_inv hp, padding_empty rfl⟩, resetWith_inv (p := Config.vectorParams) (by decide)⟩

/-- The invariant says nothing of the host's list. -/
theorem withHost_inv {s : State} (h : s.Inv) (rest : List HostEvent) : (s.withHost rest).Inv :=
  ⟨h.params, h.tree, h.packer, h.errcode⟩

/-- A command that raises no error keeps the invariant. -/
theorem effect_inv {i : Instr} {s : State} (h : s.Inv) (hn : firstError i s = none) : (effect i s).Inv where
  params := by rw [effect_params]; exact h.params
  tree := effect_tree_inv h.tree hn
  packer := by rw [effect_params]; exact effect_packer_inv h.packer hn
  errcode := by
    rcases effect_errcode i s with hkept | ⟨-, hcleared⟩
    · rw [hkept]; exact h.errcode
    · exact Or.inl hcleared

/-- Settles O54: each kind of step keeps the parts of the invariant that it touches. -/
theorem stepKeepsTheInvariant : Obligations.StepKeepsTheInvariant := by
  intro s t hs hstep
  obtain ⟨ev, rest, -, hcases⟩ := step_next hstep
  have hrest := withHost_inv hs rest
  rcases hcases with ⟨op, e, he, rfl⟩ | ⟨c, i, -, hn, rfl⟩ | ⟨v, rfl⟩ | rfl | ⟨v, rfl⟩ | ⟨i, v, hi, -, rfl⟩ | ⟨-, rfl⟩
  · exact { hrest with errcode := recordError_legal op he hs.errcode }
  · exact effect_inv hrest hn
  · exact { hrest with }
  · exact hrest
  · exact { hrest with }
  · exact { hrest with packer := setByte_inv hs.packer hi v }
  · exact { resetWith_inv hs.params with }

end Sys2Proof.Machine
end

section
/-! The step at the port (20_memory.md R60 to R72, 70_reset_and_hazards.md R190, R191): which accesses have a step, what
the step takes from the host, DATA and the PBUF window, and reset. O7, O8, O9, O13, O14, O15, O16 and O52. -/

namespace Sys2Proof.Machine

/-! ## One event -/

/-- Settles O8: the empty list is the first case of `step`. -/
theorem stepWithoutAccessEndsTheRun : Obligations.StepWithoutAccessEndsTheRun := fun _ => step_nil

/-- Settles O7: a write to CMD runs the word, and the word is the command it decodes to. -/
theorem stepRunsTheDecodedCommand : Obligations.StepRunsTheDecodedCommand := by
  intro s c i rest h hd
  rw [step_writeCmd h, runCommand_ok hd]

/-- Settles O52: no kind of step writes the parameters or the list, and only a host read appends a value. -/
theorem stepTakesOneEventAndKeepsTheParameters : Obligations.StepTakesOneEventAndKeepsTheParameters := by
  intro s t hstep
  obtain ⟨ev, rest, hhost, hcases⟩ := step_next hstep
  rw [hhost]
  rcases hcases with ⟨op, e, -, rfl⟩ | ⟨c, i, -, -, rfl⟩ | ⟨v, rfl⟩ | rfl | ⟨v, rfl⟩ | ⟨i, v, -, -, rfl⟩ | ⟨-, rfl⟩
  · exact ⟨rfl, ⟨ev, rfl⟩, Or.inl rfl⟩
  · exact ⟨by simp, ⟨ev, by simp⟩, Or.inl (by simp)⟩
  · exact ⟨rfl, ⟨ev, rfl⟩, Or.inl rfl⟩
  · exact ⟨rfl, ⟨ev, rfl⟩, Or.inl rfl⟩
  · exact ⟨rfl, ⟨ev, rfl⟩, Or.inr ⟨v, rfl⟩⟩
  · exact ⟨rfl, ⟨ev, rfl⟩, Or.inl rfl⟩
  · exact ⟨rfl, ⟨ev, rfl⟩, Or.inl rfl⟩

/-! ## The legal access forms -/

/-- A command word always has a next state (R80, R172). -/
theorem runCommand_next (c : Word) (s : State) : ∃ t, runCommand c s = .next t := by
  cases hd : decode c with
  | ok i => rw [runCommand_ok hd]; exact exec_next i s
  | error e => exact ⟨_, runCommand_error hd s⟩

/-- A write to a register is never refused (R37, R38, R65). -/
theorem writeReg_next (r : Reg) (v : Word) (s : State) : ∃ t, writeReg r v s = .next t := by
  by_cases hd : r = .data
  · subst hd; exact ⟨_, rfl⟩
  · by_cases hc : r = .cmd
    · subst hc; exact runCommand_next v s
    · exact ⟨s, writeReg_eq_next_of_ne hd hc v s⟩

/-- An access that reaches a register or a byte has a step. -/
theorem step_access_next {s : State} {ev : HostEvent} {rest : List HostEvent} {offset n : Nat} {v : Word}
    {target : Target} (h : s.host = ev :: rest) (hev : ev = .read offset n ∨ ev = .write offset n v)
    (hl : locate s.params offset n = .ok target) : ∃ t, step s = .next t := by
  rw [step_cons h]
  rcases hev with rfl | rfl
  · simp only [perform, hostRead, withHost_params, hl]
    cases target <;> exact ⟨_, rfl⟩
  · simp only [perform, hostWrite, withHost_params, hl]
    cases target with
    | reg r => exact writeReg_next r v _
    | byte i => exact ⟨_, rfl⟩

/-- An access that `locate` refuses has no step, and takes the refusal's name from it. -/
theorem step_access_refused {s : State} {ev : HostEvent} {rest : List HostEvent} {offset n : Nat} {v : Word}
    {r : Refusal} (h : s.host = ev :: rest) (hev : ev = .read offset n ∨ ev = .write offset n v)
    (hl : locate s.params offset n = .error r) : step s = .refused r := by
  rw [step_cons h]
  rcases hev with rfl | rfl
  · simp only [perform, hostRead, withHost_params, hl]
  · simp only [perform, hostWrite, withHost_params, hl]

/-- Settles O9: where the access goes decides, in both directions. -/
theorem onlyTheTwoAccessFormsHaveAStep : Obligations.OnlyTheTwoAccessFormsHaveAStep := by
  intro s ev rest offset n v h hev
  refine ⟨fun hpage => ⟨fun ⟨hn, ha⟩ => ?_, fun hform => ?_⟩, fun ⟨hlow, hhigh⟩ => ⟨fun hn => ?_, fun hn => ?_⟩,
    fun ⟨hpage, hwindow⟩ => ?_⟩
  · exact step_access_next h hev (locate_reg hpage hn ha)
  · exact step_access_refused h hev (locate_form (Or.inl ⟨hpage, hform⟩))
  · obtain ⟨i, rfl⟩ := Nat.exists_eq_add_of_le hlow
    exact step_access_next h hev (locate_byte (Nat.lt_of_add_lt_add_left hhigh) hn)
  · exact step_access_refused h hev (locate_form (Or.inr ⟨hlow, hhigh, hn⟩))
  · exact step_access_refused h hev (locate_unmapped hpage hwindow)

/-! ## DATA -/

/-- No command word writes DATA (R27). -/
theorem runCommand_data {c : Word} {s t : State} (h : runCommand c s = .next t) : t.data = s.data := by
  rcases runCommand_cases h with ⟨op, e, -, rfl⟩ | ⟨i, -, -, rfl⟩
  · rfl
  · exact effect_data i s

/-- Settles O13: a write at offset 0x014 is a write to the register DATA, and one at 0x010 runs the word. -/
theorem onlyTheHostWritesData : Obligations.OnlyTheHostWritesData := by
  refine ⟨fun s v rest h => ?_, fun s t c rest h hstep => ?_⟩
  · exact step_write_register h (by decide) (by decide)
  · rw [step_writeCmd h] at hstep
    exact (runCommand_data hstep).trans (withHost_data s rest)

/-! ## The PBUF window -/

/-- A 1-byte write in the PBUF window sets the byte there (R61, R66). -/
theorem step_write_byte {s : State} {i : Nat} {v : Word} {rest : List HostEvent}
    (h : s.host = .write (0x20000000 + i) 1 v :: rest) (hi : i < s.params.pbufBytes) :
    step s = .next ((s.withHost rest).withBp (s.bp.setByte i (v.setWidth 8))) := by
  rw [step_cons h]
  simp only [perform, hostWrite, withHost_params, locate_byte hi rfl, withHost_bp]

/-- Reset with the host about to set the first bit of the empty buffer. -/
def aboutToBreakPadding : State := State.reset.withHost [.write 0x20000000 1 0x80#32]

/-- Writing 0x80 to byte 0 of an empty stream sets position 0, which the padding invariant wants 0 (R63). -/
theorem step_aboutToBreakPadding : ∃ t, step aboutToBreakPadding = .next t ∧ ¬PaddingInv t := by
  refine ⟨_, step_write_byte (i := 0) rfl (by decide), fun hpad => ?_⟩
  exact absurd (hpad 0 (Nat.le_refl 0) (by decide)) (by decide)

/-- Settles O14: the window's two steps, and a write that sets a padding bit. -/
theorem pbufWindowReadsAndWritesOneByte : Obligations.PbufWindowReadsAndWritesOneByte := by
  constructor
  · intro s i rest hi hwf
    refine ⟨fun h => step_read_byte h hi, fun v h => ?_⟩
    exact ⟨Memory.write s.bp.pbuf i (v.setWidth 8), step_write_byte h hi,
      Memory.read_write_same hwf i _, fun j hj => Memory.read_write_other _ _ hj⟩
  · obtain ⟨t, hstep, hbroken⟩ := step_aboutToBreakPadding
    exact ⟨aboutToBreakPadding, t, 0x80#32, withHost_inv (resetWith_inv (by decide)) _, rfl, padding_empty rfl,
      hstep, hbroken⟩

/-! ## Reset -/

/-- A reset event resets the device (R190). -/
theorem step_reset {s : State} {rest : List HostEvent} (h : s.host = .reset :: rest) :
    step s = .next (resetDevice (s.withHost rest)) := by
  rw [step_cons h]; rfl

/-- After reset STATUS shows RD_END alone: no error, root or merge, and an empty stream read to its end (R21, R24). -/
theorem status_resetDevice (s : State) : readReg (resetDevice s) .status = 0x00000010#32 := by
  have herr : statusErr (resetDevice s) = false := statusErr_of_errcode_zero rfl
  change flagAt (statusErr (resetDevice s)) 0 ||| flagAt false 1 ||| flagAt false 2 ||| flagAt false 3 |||
    flagAt true 4 = 0x00000010#32
  rw [herr]
  decide

/-- After reset every register but ID, PBUF_SIZE and STATUS reads 0 (R21). -/
theorem readReg_resetDevice (s : State) :
    ∀ r ∈ [Reg.errcode, .cmd, .data, .result, .bitcnt, .rdpos, .acc, .tbCount, .tbNodes, .tbRoot, .nodeW, .nodeLink,
      .reserved], readReg (resetDevice s) r = 0#32 := by
  have hacc : readReg (resetDevice s) .acc = 0#32 := accWord_empty
  simp only [List.forall_mem_cons]
  exact ⟨rfl, rfl, rfl, rfl, rfl, rfl, hacc, rfl, rfl, rfl, rfl, rfl, rfl, by simp⟩

/-- Settles O15: the reset device is `State.resetWith`, and each register reads the reset value of its element. -/
theorem resetSetsEveryElement : Obligations.ResetSetsEveryElement := by
  intro s rest h
  have hregs := readReg_resetDevice (s.withHost rest)
  exact ⟨_, step_reset h, rfl, rfl, rfl, rfl, rfl, rfl, rfl, rfl, rfl, rfl, rfl, rfl, rfl, rfl, Memory.read_nil, rfl,
    rfl, rfl, rfl, rfl, status_resetDevice _, hregs⟩

/-- Settles O16: CLRERR, TB_CLEAR and BP_CLEAR clear the error record and the two units, all that reset touches but
DATA. -/
theorem softwareResetEqualsReset : Obligations.SoftwareResetEqualsReset := by
  intro s rest
  exact ⟨_, _, _, exec_of_no_error rfl, exec_of_no_error rfl, exec_of_no_error rfl, step_reset rfl⟩

end Sys2Proof.Machine
end

section
/-! What each register reads (10_state.md R22 to R37): the fields of STATUS, ERRCODE, ACC, the counters and NODE_LINK.
O11. -/

namespace Sys2Proof.Machine

/-! ## Fields -/

/-- The five flags of STATUS stand in bits 0 to 4, with nothing above them (R24). -/
theorem flag_bits : ∀ err busy root merged rdEnd : Bool,
    let v := flagAt err 0 ||| flagAt busy 1 ||| flagAt root 2 ||| flagAt merged 3 ||| flagAt rdEnd 4
    v.getLsbD 0 = err ∧ v.getLsbD 1 = busy ∧ v.getLsbD 2 = root ∧ v.getLsbD 3 = merged ∧ v.getLsbD 4 = rdEnd ∧
      v.toNat < 32 := by decide

/-- STATUS.ERR as a proposition about ERRCODE.CODE (R24). -/
theorem statusErr_eq_decide (s : State) : statusErr s = decide (s.errcode.extractLsb' 0 8 ≠ 0#8) := by
  simp [statusErr, errcodeCode, bne, beq_eq_decide]

/-- A record holds its code and its opcode, and nothing above them (R25). -/
theorem errorRecord_high (op : BitVec 8) (e : ErrKind) : (errorRecord op e).extractLsb' 16 16 = 0#16 := by
  refine BitVec.eq_of_getLsbD_eq (fun k hk => ?_)
  simp only [errorRecord]
  interval_cases k <;> simp

/-- ERRCODE's bits 31:16 read 0 (R25). -/
theorem legalErrcode_high {ec : Word} (h : LegalErrcode ec) : ec.extractLsb' 16 16 = 0#16 := by
  rcases h with rfl | ⟨op, e, -, rfl⟩
  · rfl
  · exact errorRecord_high op e

/-- ACC's fields read back (R31). -/
theorem accWord_fields (b : BitPacker) :
    (accWord b).extractLsb' 0 8 = accByte b ∧ ((accWord b).extractLsb' 8 3).toNat = accFill b ∧
      (accWord b).extractLsb' 11 21 = 0#21 := by
  have hfill : accFill b < 2 ^ 3 := Nat.mod_lt _ (by decide)
  refine ⟨?_, ?_, ?_⟩
  · refine BitVec.eq_of_getLsbD_eq (fun k hk => ?_)
    simp only [accWord]
    interval_cases k <;> simp
  · have hfield : (accWord b).extractLsb' 8 3 = BitVec.ofNat 3 (accFill b) := by
      refine BitVec.eq_of_getLsbD_eq (fun k hk => ?_)
      simp only [accWord]
      interval_cases k <;> simp [ofNat_getElem]
    rw [hfield, BitVec.toNat_ofNat, Nat.mod_eq_of_lt hfill]
  · refine BitVec.eq_of_getLsbD_eq (fun k hk => ?_)
    simp only [accWord]
    interval_cases k <;> simp [ofNat_getElem, testBit_of_lt hfill]

/-- A count below 2^9 reads as itself (R32, R33). -/
theorem count9_toNat {n : Nat} (h : n < 512) : (count9 n).toNat = n := by
  rw [count9, BitVec.toNat_setWidth_of_le (by decide), toNat_ofNat_handle h]

/-- NODE_LINK's reserved bits, as a mask and as a field (R36). -/
theorem extract_of_linkMask {v : Word} (h : v &&& 0x7C000000#32 = 0#32) : v.extractLsb' 26 5 = 0#5 := by
  calc v.extractLsb' 26 5 = v.extractLsb' 26 5 &&& (0x7C000000#32).extractLsb' 26 5 := BitVec.and_allOnes.symm
    _ = (v &&& 0x7C000000#32).extractLsb' 26 5 := BitVec.extractLsb'_and.symm
    _ = 0#5 := by rw [h]; rfl

/-! ## The register page -/

/-- Settles O11: the read answers `readReg`, which at each offset is one field, view or constant. -/
theorem registerReadsReturnTheirRulesValue : Obligations.RegisterReadsReturnTheirRulesValue := by
  intro s offset rest hs h ha hp
  obtain ⟨⟨-, hbytes⟩, htree, hpacker, herr⟩ := hs
  obtain ⟨hnodes, hpq⟩ := htree.capacity
  obtain ⟨hrd, hcnt⟩ := hpacker.counts
  simp only [Config.nodeCap, Config.maxLeaves, Params.capacityBits] at hnodes hpq hcnt
  obtain ⟨hbit0, hbit1, hbit2, hbit3, hbit4, hlt⟩ :=
    flag_bits (statusErr s) (statusBusy s) (statusRootValid s) (statusMerged s) (statusRdEnd s)
  obtain ⟨hbyte, hfill, hhigh⟩ := accWord_fields s.bp
  refine ⟨readReg s (regAt offset), ?_, ?_, ?_, ?_, ?_, ?_, ?_, ?_, ?_, ?_, ?_, ?_, ?_, ?_, ?_, ?_, ?_⟩
  · rw [step_read_register h hp ha, readReg_withHost]
    rfl
  case refine_17 => intro hlow; rw [regAt_reserved hlow]; rfl
  all_goals rintro rfl
  · rfl
  · exact toNat_ofNat_weight (by omega)
  · exact ⟨hbit0.trans (statusErr_eq_decide s), hbit1, hbit2, hbit3, hbit4, hlt⟩
  · exact ⟨rfl, legalErrcode_high herr⟩
  · rfl
  · rfl
  · rfl
  · exact toNat_ofNat_weight (by omega)
  · exact toNat_ofNat_weight (by omega)
  · exact ⟨hbyte, hfill, hhigh⟩
  · exact count9_toNat (by omega)
  · exact count9_toNat (by simpa [TreeUnit.ncount] using by omega)
  · exact BitVec.toNat_setWidth_of_le (by decide)
  · rfl
  · exact ⟨rfl, extract_of_linkMask htree.linkReserved⟩

end Sys2Proof.Machine
end

section
/-! The error record (60_exceptions.md R172 to R178): no check and no effect but CLRERR's looks at it, so a command does
the same whatever it holds. O18 and O19. -/

namespace Sys2Proof.Machine

/-- The checks of R175 do not look at ERRCODE (R173). -/
theorem firstError_withErrcode (i : Instr) (s : State) (ec : Word) :
    firstError i (s.withErrcode ec) = firstError i s := by cases i <;> rfl

/-- What TB_MERGE makes of the unit when it raises no error: the root of one entry, or a merge step and then the root if
one entry is left (R116). -/
def mergedUnit (t : TreeUnit) : TreeUnit :=
  if t.pq.length = 1 then t.markRoot
  else if t.mergeStep.pq.length = 1 then t.mergeStep.markRoot
  else t.mergeStep

theorem effect_tbMerge (s : State) : effect .tbMerge s = s.withTb (mergedUnit s.tb) := by
  simp only [effect, mergedUnit]
  split_ifs <;> rfl

/-- No effect but CLRERR's looks at ERRCODE or writes it (R173). -/
theorem effect_withErrcode {i : Instr} (hi : i ≠ .clrerr) (s : State) (ec : Word) :
    effect i (s.withErrcode ec) = (effect i s).withErrcode ec := by
  cases i with
  | clrerr => exact absurd rfl hi
  | tbMerge => rw [effect_tbMerge, effect_tbMerge]; rfl
  | tbRead h => simp only [effect, withErrcode_tb]; split <;> rfl
  | _ => rfl

theorem effect_errcode_of_ne {i : Instr} (hi : i ≠ .clrerr) (s : State) : (effect i s).errcode = s.errcode :=
  (effect_errcode i s).resolve_right (fun h => hi h.1)

/-- Settles O18: the effect neither writes the record nor depends on it. -/
theorem successfulCommandKeepsTheErrorRecord : Obligations.SuccessfulCommandKeepsTheErrorRecord := by
  intro i s hn hi
  refine ⟨effect i s, exec_of_no_error hn, effect_errcode_of_ne hi s, fun ec => ?_⟩
  change exec i (s.withErrcode ec) = .next ((effect i s).withErrcode ec)
  rw [exec_of_no_error (by rw [firstError_withErrcode, hn]), effect_withErrcode hi]

/-- The first error stays recorded: a second record of it changes nothing (R172). -/
theorem recordError_idem (op : BitVec 8) (e : ErrKind) (ec : Word) :
    recordError op e (recordError op e ec) = recordError op e ec := by
  refine recordError_of_code op e ?_
  by_cases h : errcodeCode ec = 0#8
  · rw [recordError, if_pos h, errorRecord_code]
    exact errCode_ne_zero e
  · rwa [recordError_of_code op e h]

/-- Settles O19: the failed command left everything but the record, which its checks do not look at. -/
theorem reissuedCommandFailsAgain : Obligations.ReissuedCommandFailsAgain := by
  intro i s t e he hexec
  rw [exec_of_error he] at hexec
  obtain rfl := Host.Outcome.next.inj hexec
  have hagain := (firstError_withErrcode i s (recordError (opcode i) e s.errcode)).trans he
  refine ⟨hagain, ?_, exec_of_no_error rfl, (firstError_withErrcode i s 0#32).trans he⟩
  rw [exec_of_error hagain, withErrcode_errcode, recordError_idem]
  rfl

end Sys2Proof.Machine
end

section
/-! What a command leaves alone: the other unit, DATA and the host's side, the result registers, the node slots in use,
the bit counts and the padding (41_tree_builder.md and 42_bit_packer.md, opening paragraphs; 10_state.md R25 to R48).
O46 to O51. -/

namespace Sys2Proof.Machine

/-! ## Every command -/

/-- No command touches the parameters, DATA or the host's side (R20, R27). -/
theorem exec_frame {i : Instr} {s t : State} (h : exec i s = .next t) :
    t.params = s.params ∧ t.host = s.host ∧ t.reads = s.reads ∧ t.data = s.data := by
  rcases exec_cases h with ⟨e, -, rfl⟩ | ⟨-, rfl⟩
  · exact ⟨rfl, rfl, rfl, rfl⟩
  · exact ⟨effect_params i s, effect_host i s, effect_reads i s, effect_data i s⟩

/-- A failed command leaves both units (R172). -/
theorem exec_units_of_error {i : Instr} {s t : State} (h : exec i s = .next t) (he : firstError i s ≠ none) :
    t.tb = s.tb ∧ t.bp = s.bp := by
  rcases exec_cases h with ⟨e, -, rfl⟩ | ⟨hn, -⟩
  · exact ⟨rfl, rfl⟩
  · exact absurd hn he

/-- A command that raises no error leaves ERRCODE, but for CLRERR (R25). -/
theorem exec_errcode_of_no_error {i : Instr} {s t : State} (h : exec i s = .next t) (hn : firstError i s = none)
    (hi : i ≠ .clrerr) : t.errcode = s.errcode := by
  rw [exec_of_no_error hn] at h
  obtain rfl := Host.Outcome.next.inj h
  exact effect_errcode_of_ne hi s

/-! ## The two families -/

/-- Only a bit packer command touches the bit packer. -/
theorem effect_bp_of_not_packer {i : Instr} (hi : isPackerCommand i = false) (s : State) : (effect i s).bp = s.bp := by
  cases i with
  | tbMerge => rw [effect_tbMerge]; rfl
  | tbRead h => simp only [effect]; split <;> rfl
  | bpClear | bpPut | bpGet | bpRewind | bpSetlen => cases hi
  | _ => rfl

/-- Only a tree builder command touches the tree builder. -/
theorem effect_tb_of_not_tree {i : Instr} (hi : isTreeCommand i = false) (s : State) : (effect i s).tb = s.tb := by
  cases i with
  | tbClear | tbLeaf | tbMerge | tbBuild | tbRead => cases hi
  | _ => rfl

theorem exec_bp_of_not_packer {i : Instr} {s t : State} (hi : isPackerCommand i = false) (h : exec i s = .next t) :
    t.bp = s.bp := by
  rcases exec_cases h with ⟨e, -, rfl⟩ | ⟨-, rfl⟩
  · rfl
  · exact effect_bp_of_not_packer hi s

theorem exec_tb_of_not_tree {i : Instr} {s t : State} (hi : isTreeCommand i = false) (h : exec i s = .next t) :
    t.tb = s.tb := by
  rcases exec_cases h with ⟨e, -, rfl⟩ | ⟨-, rfl⟩
  · rfl
  · exact effect_tb_of_not_tree hi s

/-- The families are disjoint. -/
theorem not_packer_of_tree {i : Instr} (hi : isTreeCommand i = true) : isPackerCommand i = false := by
  cases i with
  | bpClear | bpPut | bpGet | bpRewind | bpSetlen => cases hi
  | _ => rfl

theorem not_tree_of_packer {i : Instr} (hi : isPackerCommand i = true) : isTreeCommand i = false := by
  cases i with
  | tbClear | tbLeaf | tbMerge | tbBuild | tbRead => cases hi
  | _ => rfl

/-- Settles O46: a tree builder command is no bit packer command and not CLRERR. -/
theorem treeCommandsFrame : Obligations.TreeCommandsFrame := by
  intro i s t hi h
  obtain ⟨hparams, hhost, hreads, hdata⟩ := exec_frame h
  have hbp := exec_bp_of_not_packer (not_packer_of_tree hi) h
  have hne : i ≠ .clrerr := by rintro rfl; cases hi
  exact ⟨hbp, hdata, hparams, hhost, hreads, fun he => (exec_units_of_error h he).1,
    fun hn => exec_errcode_of_no_error h hn hne, fun _ => by rw [hbp]⟩

/-- Settles O47: a bit packer command is no tree builder command and not CLRERR. -/
theorem packerCommandsFrame : Obligations.PackerCommandsFrame := by
  intro i s t hi h
  obtain ⟨hparams, hhost, hreads, hdata⟩ := exec_frame h
  have hne : i ≠ .clrerr := by rintro rfl; cases hi
  exact ⟨exec_tb_of_not_tree (not_tree_of_packer hi) h, hdata, hparams, hhost, hreads,
    fun he => (exec_units_of_error h he).2, fun hn => exec_errcode_of_no_error h hn hne⟩

/-! ## The tree builder's registers and slots -/

/-- TB_MERGE and TB_BUILD run merges and may then mark the root, nothing more (R116, R118). -/
theorem effect_tb_of_merges {i : Instr} {s : State} (hi : i = .tbMerge ∨ i = .tbBuild) (hn : firstError i s = none) :
    ∃ u, MergedFrom s.tb u ∧ ((effect i s).tb = u ∨ (effect i s).tb = u.markRoot) := by
  rcases hi with rfl | rfl
  · simp only [firstError] at hn
    split_ifs at hn with hempty
    have hpos := List.length_pos_iff.2 hempty
    simp only [effect_tbMerge, withTb_tb, mergedUnit]
    split_ifs with hone hlast
    · exact ⟨s.tb, .refl s.tb, Or.inr rfl⟩
    all_goals
      obtain ⟨a, b, hstep, ha, hb, -, -⟩ := mergeStep_spec s.tb (by omega)
      have hmerged : MergedFrom s.tb s.tb.mergeStep := by rw [hstep]; exact (MergedFrom.refl s.tb).merge ha hb
    · exact ⟨_, hmerged, Or.inr rfl⟩
    · exact ⟨_, hmerged, Or.inl rfl⟩
  · simp only [firstError] at hn
    split_ifs at hn with hempty hfit
    exact ⟨_, mergedFrom_mergeLoop (Nat.le_of_not_lt hfit) s.tb.pq.length, Or.inr rfl⟩

/-- Merges leave the read-back registers and append slots. -/
theorem MergedFrom.frame {t u : TreeUnit} (h : MergedFrom t u) :
    u.nodeW = t.nodeW ∧ u.nodeLink = t.nodeLink ∧ ∃ new, u.nodes = t.nodes ++ new := by
  obtain ⟨new, hist, -, -, hu⟩ := h
  rw [hu]
  exact ⟨rfl, rfl, new, rfl⟩

/-- TB_MERGE and TB_BUILD leave the read-back registers and append slots (R40, R116, R118). -/
theorem effect_frame_of_merges {i : Instr} {s : State} (hi : i = .tbMerge ∨ i = .tbBuild)
    (hn : firstError i s = none) :
    (effect i s).tb.nodeW = s.tb.nodeW ∧ (effect i s).tb.nodeLink = s.tb.nodeLink ∧
      ∃ new, (effect i s).tb.nodes = s.tb.nodes ++ new := by
  obtain ⟨u, hmerged, htb | htb⟩ := effect_tb_of_merges hi hn
  · rw [htb]; exact hmerged.frame
  · rw [htb, markRoot_nodeW, markRoot_nodeLink, markRoot_nodes]; exact hmerged.frame

/-- NODE_W and NODE_LINK have two writers (R35, R36). -/
theorem effect_nodeRegs {i : Instr} {s : State} (hn : firstError i s = none) :
    ((effect i s).tb.nodeW = s.tb.nodeW ∧ (effect i s).tb.nodeLink = s.tb.nodeLink) ∨
      i = .tbClear ∨ ∃ h, i = .tbRead h := by
  cases i with
  | tbClear => exact Or.inr (Or.inl rfl)
  | tbRead h => exact Or.inr (Or.inr ⟨h, rfl⟩)
  | tbLeaf sym => exact Or.inl ⟨rfl, rfl⟩
  | tbMerge =>
    obtain ⟨hw, hlink, -⟩ := effect_frame_of_merges (Or.inl rfl) hn
    exact Or.inl ⟨hw, hlink⟩
  | tbBuild =>
    obtain ⟨hw, hlink, -⟩ := effect_frame_of_merges (Or.inr rfl) hn
    exact Or.inl ⟨hw, hlink⟩
  | _ => exact Or.inl ⟨rfl, rfl⟩

/-- RESULT has two writers (R28). -/
theorem effect_result (i : Instr) (s : State) :
    (effect i s).bp.result = s.bp.result ∨ i = .bpClear ∨ ∃ w, i = .bpGet w := by
  cases i with
  | bpClear => exact Or.inr (Or.inl rfl)
  | bpGet w => exact Or.inr (Or.inr ⟨w, rfl⟩)
  | bpPut | bpRewind | bpSetlen => exact Or.inl rfl
  | _ => left; rw [effect_bp_of_not_packer rfl]

/-- Settles O48: an error writes the record alone, and only an empty one; each effect names its registers. -/
theorem eachResultRegisterHasItsWriters : Obligations.EachResultRegisterHasItsWriters := by
  intro i s t h
  rcases exec_cases h with ⟨e, he, rfl⟩ | ⟨hn, rfl⟩
  · refine ⟨fun hne => absurd rfl hne, fun hne => ?_, fun hne => Or.inr ⟨by simp [he], ?_⟩⟩
    · rcases hne with hne | hne <;> exact absurd rfl hne
    · by_contra hcode
      exact hne (recordError_of_code _ e hcode)
  · refine ⟨(effect_result i s).resolve_left, fun hne => ?_, fun hne => Or.inl ?_⟩
    · refine (effect_nodeRegs hn).resolve_left (fun ⟨hw, hlink⟩ => ?_)
      exact hne.elim (· hw) (· hlink)
    · by_contra hi
      exact hne (effect_errcode_of_ne hi s)

/-- Every command but TB_CLEAR keeps the slots in use, and three append some (R40). -/
theorem effect_nodes {i : Instr} {s : State} (hi : i ≠ .tbClear) (hn : firstError i s = none) :
    (∃ new, (effect i s).tb.nodes = s.tb.nodes ++ new) ∧
      ((effect i s).tb.nodes ≠ s.tb.nodes → i = .tbMerge ∨ i = .tbBuild ∨ ∃ sym, i = .tbLeaf sym) := by
  cases i with
  | tbClear => exact absurd rfl hi
  | tbLeaf sym => exact ⟨⟨[.leaf sym s.data], rfl⟩, fun _ => Or.inr (Or.inr ⟨sym, rfl⟩)⟩
  | tbMerge =>
    obtain ⟨-, -, hnodes⟩ := effect_frame_of_merges (Or.inl rfl) hn
    exact ⟨hnodes, fun _ => Or.inl rfl⟩
  | tbBuild =>
    obtain ⟨-, -, hnodes⟩ := effect_frame_of_merges (Or.inr rfl) hn
    exact ⟨hnodes, fun _ => Or.inr (Or.inl rfl)⟩
  | tbRead h =>
    have hsame : (effect (.tbRead h) s).tb.nodes = s.tb.nodes := by simp only [effect]; split <;> rfl
    exact ⟨⟨[], by simp [hsame]⟩, fun hne => absurd hsame hne⟩
  | _ => exact ⟨⟨[], by simp [effect]⟩, fun hne => absurd rfl hne⟩

/-- Settles O49: an error leaves the slots, and every effect but TB_CLEAR's appends to them. -/
theorem slotsInUseAreNeverRewritten : Obligations.SlotsInUseAreNeverRewritten := by
  intro i s t hi h
  rcases exec_cases h with ⟨e, -, rfl⟩ | ⟨hn, rfl⟩
  · exact ⟨fun _ _ hslot => hslot, fun hne => absurd rfl hne⟩
  · obtain ⟨⟨new, hnew⟩, hwriters⟩ := effect_nodes hi hn
    refine ⟨fun k n hslot => ?_, hwriters⟩
    obtain ⟨hlt, -⟩ := List.getElem?_eq_some_iff.1 hslot
    rw [hnew, List.getElem?_append_left hlt, hslot]

/-! ## The bit counts -/

/-- R48's bounds. -/
def CountsInBounds (s : State) : Prop := s.bp.rdpos ≤ s.bp.bitcnt ∧ s.bp.bitcnt ≤ 8 * s.params.pbufBytes

/-- A command that raises no error keeps the bounds (R48). -/
theorem effect_counts {i : Instr} {s : State} (h : CountsInBounds s) (hn : firstError i s = none) :
    CountsInBounds (effect i s) := by
  obtain ⟨hrd, hcnt⟩ := h
  cases i with
  | bpClear => exact ⟨Nat.le_refl 0, Nat.zero_le _⟩
  | bpPut w =>
    simp only [firstError] at hn
    split_ifs at hn with hw hfull
    simp only [CountsInBounds, effect, withBp_bp, withBp_params, append_rdpos, append_bitcnt, fieldBits_length]
    omega
  | bpGet w =>
    simp only [firstError] at hn
    split_ifs at hn with hw hpast
    simp only [CountsInBounds, effect, withBp_bp, withBp_params, take_rdpos, take_bitcnt]
    omega
  | bpRewind => exact ⟨Nat.zero_le _, hcnt⟩
  | bpSetlen =>
    simp only [firstError] at hn
    split_ifs at hn with hpast
    exact ⟨Nat.zero_le _, Nat.le_of_not_lt hpast⟩
  | _ => rw [CountsInBounds, effect_bp_of_not_packer rfl, effect_params]; exact ⟨hrd, hcnt⟩

/-- Every step keeps the bounds (R48). -/
theorem step_counts {s t : State} (h : CountsInBounds s) (hstep : step s = .next t) : CountsInBounds t := by
  obtain ⟨ev, rest, -, hcases⟩ := step_next hstep
  rcases hcases with ⟨op, e, -, rfl⟩ | ⟨c, i, -, hn, rfl⟩ | ⟨v, rfl⟩ | rfl | ⟨v, rfl⟩ | ⟨i, v, -, -, rfl⟩ | ⟨-, rfl⟩
  · exact h
  · exact effect_counts (s := s.withHost rest) h hn
  · exact h
  · exact h
  · exact h
  · exact h
  · exact ⟨Nat.le_refl 0, Nat.zero_le _⟩

/-- BITCNT has three writers (R29). -/
theorem effect_bitcnt (i : Instr) (s : State) :
    (effect i s).bp.bitcnt = s.bp.bitcnt ∨ (∃ w, i = .bpPut w ∧ (effect i s).bp.bitcnt = s.bp.bitcnt + w) ∨
      (i = .bpSetlen ∧ (effect i s).bp.bitcnt = s.data.toNat) ∨ (i = .bpClear ∧ (effect i s).bp.bitcnt = 0) := by
  cases i with
  | bpPut w => exact Or.inr (Or.inl ⟨w, rfl, by simp [effect]⟩)
  | bpSetlen => exact Or.inr (Or.inr (Or.inl ⟨rfl, rfl⟩))
  | bpClear => exact Or.inr (Or.inr (Or.inr ⟨rfl, rfl⟩))
  | bpGet | bpRewind => exact Or.inl rfl
  | _ => left; rw [effect_bp_of_not_packer rfl]

/-- RDPOS has four writers (R30). -/
theorem effect_rdpos (i : Instr) (s : State) :
    (effect i s).bp.rdpos = s.bp.rdpos ∨ (∃ w, i = .bpGet w ∧ (effect i s).bp.rdpos = s.bp.rdpos + w) ∨
      ((i = .bpRewind ∨ i = .bpSetlen ∨ i = .bpClear) ∧ (effect i s).bp.rdpos = 0) := by
  cases i with
  | bpGet w => exact Or.inr (Or.inl ⟨w, rfl, rfl⟩)
  | bpRewind => exact Or.inr (Or.inr ⟨Or.inl rfl, rfl⟩)
  | bpSetlen => exact Or.inr (Or.inr ⟨Or.inr (Or.inl rfl), rfl⟩)
  | bpClear => exact Or.inr (Or.inr ⟨Or.inr (Or.inr rfl), rfl⟩)
  | bpPut w => exact Or.inl rfl
  | _ => left; rw [effect_bp_of_not_packer rfl]

/-- Settles O50: the bounds are a step invariant, and each count's writers are read off the effects. -/
theorem bitCountsStayInBounds : Obligations.BitCountsStayInBounds := by
  refine ⟨fun s t hstep h => step_counts h hstep, fun i s t h => ?_⟩
  rcases exec_cases h with ⟨e, -, rfl⟩ | ⟨-, rfl⟩
  · exact ⟨fun hne => absurd rfl hne, fun hne => absurd rfl hne⟩
  · exact ⟨(effect_bitcnt i s).resolve_left, (effect_rdpos i s).resolve_left⟩

/-! ## The padding -/

/-- A command that raises no error keeps the padding (R63). -/
theorem effect_padding {i : Instr} {s : State} (hw : Memory.wf s.bp.pbuf) (h : PaddingInv s) :
    PaddingInv (effect i s) := by
  cases i with
  | bpClear => exact padding_empty rfl
  | bpPut w => exact padding_append hw h _
  | bpGet w => exact h
  | bpRewind => exact h
  | bpSetlen => exact padding_setLength hw _
  | _ => rw [PaddingInv, effect_bp_of_not_packer rfl, effect_params]; exact h

/-- Settles O51: of the kinds of step only a window write touches the buffer outside a bit packer command. -/
theorem paddingInvariantIsKept : Obligations.PaddingInvariantIsKept := by
  constructor
  · intro s t hw h hstep hwindow
    obtain ⟨ev, rest, hhost, hcases⟩ := step_next hstep
    rcases hcases with ⟨op, e, -, rfl⟩ | ⟨c, i, -, -, rfl⟩ | ⟨v, rfl⟩ | rfl | ⟨v, rfl⟩ | ⟨i, v, hi, ⟨w, rfl⟩, -⟩ |
      ⟨-, rfl⟩
    · exact h
    · exact effect_padding (s := s.withHost rest) hw h
    · exact h
    · exact h
    · exact h
    · exact absurd hhost (hwindow i w rest hi)
    · exact padding_empty rfl
  · rintro s t hw (h | ⟨hfit, h⟩ | ⟨rest, hhost, h⟩)
    · rw [exec_of_no_error rfl] at h
      exact padding_empty (by rw [← Host.Outcome.next.inj h]; rfl)
    · rw [exec_of_no_error (i := .bpSetlen) (if_neg (Nat.not_lt.2 hfit))] at h
      rw [← Host.Outcome.next.inj h]
      exact padding_setLength hw _
    · rw [step_reset hhost] at h
      exact padding_empty (by rw [← Host.Outcome.next.inj h]; rfl)

end Sys2Proof.Machine
end

section
/-! Properties the tree builder's commands give together (41_tree_builder.md section 3): the overflow check and the
order of children, TB_BUILD after merges and on a complete tree, the root's weight, and determinism. O27, O28, O30, O31,
O33 and O34. -/

namespace Sys2Proof.Machine

/-! ## One merge step -/

/-- Settles O27: the two lightest weights do not depend on which entries carry them. -/
theorem overflowCheckIsExactForEveryTieBreak : Obligations.OverflowCheckIsExactForEveryTieBreak :=
  fun _ _ _ ha hb hmin hmin2 => twoLowestSum_eq ha hb hmin hmin2

/-- An entry's handle is in use. -/
theorem entry_inUse {t : TreeUnit} (hi : t.Inv) {e : Entry} (he : e ∈ t.pq) : e.handle.toNat < t.nodes.length :=
  hi.inUse _ (List.mem_append_right _ (List.mem_map_of_mem he))

/-- Settles O28: the entry extracted first is on the left, and entries weigh what their nodes weigh. -/
theorem lighterEntryGoesLeft : Obligations.LighterEntryGoesLeft := by
  intro t hi h2 hfit
  obtain ⟨a, b, hstep, ha, hb, hmin, hmin2⟩ := mergeStep_spec t h2
  have hb' := List.mem_of_mem_erase hb
  have hwa := hi.entries a ha
  have hwb := hi.entries b hb'
  rw [twoLowestSum_eq ha hb hmin hmin2] at hfit
  refine ⟨_, a.handle, b.handle, by rw [hstep]; rfl, ?_, ?_, entry_inUse hi ha, entry_inUse hi hb'⟩
  · rw [toNat_ofNat_weight hfit, hwa, hwb]
  · rw [← hwa, ← hwb]
    exact hmin b hb'

/-! ## TB_BUILD after TB_MERGE -/

/-- When TB_BUILD raises no error the container has an entry and its total fits (R118). -/
theorem fits_of_firstError_tbBuild {s : State} (hn : firstError .tbBuild s = none) :
    s.tb.pq ≠ [] ∧ totalWeight s.tb.pq ≤ maxWord := by
  simp only [firstError] at hn
  split_ifs at hn with hempty hover
  exact ⟨hempty, Nat.le_of_not_lt hover⟩

/-- Marking the root before a build of one entry makes no difference (R118, R119). -/
theorem build_markRoot {t : TreeUnit} (h : t.pq.length = 1) : t.markRoot.build = t.build := by
  obtain ⟨e, he⟩ := List.length_eq_one_iff.1 h
  have hmarked : t.markRoot.pq = [e] := (markRoot_pq t).trans he
  rw [build_single t he, build_single _ hmarked, markRoot_of_single _ hmarked, markRoot_of_single t he]

/-- A TB_MERGE before a build makes no difference to what is built (R118). -/
theorem build_mergedUnit {t : TreeUnit} (hne : t.pq ≠ []) : (mergedUnit t).build = t.build := by
  have hpos := List.length_pos_iff.2 hne
  unfold mergedUnit
  split_ifs with hone hlast
  · exact build_markRoot hone
  · rw [build_markRoot hlast, build_mergeStep t (by omega)]
  · exact build_mergeStep t (by omega)

/-- A TB_MERGE whose sum fits keeps the container's total (R118). -/
theorem totalWeight_mergedUnit {t : TreeUnit} (hne : t.pq ≠ []) (hfit : totalWeight t.pq ≤ maxWord) :
    totalWeight (mergedUnit t).pq = totalWeight t.pq := by
  have hpos := List.length_pos_iff.2 hne
  unfold mergedUnit
  split_ifs with hone hlast
  · rw [markRoot_pq]
  all_goals
    obtain ⟨a, b, hstep, ha, hb, -, -⟩ := mergeStep_spec t (by omega)
    have htotal := mergeOf_total ha hb ((pair_le_total ha hb).trans hfit)
  · rw [markRoot_pq, hstep, htotal]
  · rw [hstep, htotal]

/-- A TB_MERGE leaves an entry. -/
theorem mergedUnit_pq_ne_nil {t : TreeUnit} (hne : t.pq ≠ []) : (mergedUnit t).pq ≠ [] := by
  have hpos := List.length_pos_iff.2 hne
  rw [← List.length_pos_iff]
  unfold mergedUnit
  split_ifs with hone hlast
  · rwa [markRoot_pq]
  · rw [markRoot_pq]; omega
  · rw [mergeStep_pq_length t (by omega)]; omega

/-- A total that fits leaves TB_MERGE no error (R116). -/
theorem exec_tbMerge_of_fits {s : State} (hne : s.tb.pq ≠ []) (hfit : totalWeight s.tb.pq ≤ maxWord) :
    exec .tbMerge s = .next (s.withTb (mergedUnit s.tb)) := by
  rw [← effect_tbMerge]
  refine exec_of_no_error ?_
  rw [firstError, if_neg hne, if_neg]
  rintro ⟨h2, hover⟩
  obtain ⟨a, b, -, ha, hb, hmin, hmin2⟩ := mergeStep_spec s.tb h2
  rw [twoLowestSum_eq ha hb hmin hmin2] at hover
  exact absurd ((pair_le_total ha hb).trans hfit) (Nat.not_le.2 hover)

/-- TB_BUILD does the same after any number of merges (R118). -/
theorem exec_tbBuild_after_merges (k : Nat) {s t : State} (hne : s.tb.pq ≠ []) (hfit : totalWeight s.tb.pq ≤ maxWord)
    (hrun : runCommands (List.replicate k (s.data, .tbMerge)) s = .next t) : exec .tbBuild t = exec .tbBuild s := by
  induction k generalizing s with
  | zero => rw [Host.Outcome.next.inj hrun]
  | succ k ih =>
    have hmerge : exec .tbMerge (s.withData s.data) = .next (s.withTb (mergedUnit s.tb)) :=
      exec_tbMerge_of_fits hne hfit
    have hne' := mergedUnit_pq_ne_nil hne
    have hfit' := (totalWeight_mergedUnit hne hfit).trans_le hfit
    simp only [List.replicate_succ, runCommands, hmerge] at hrun
    rw [ih (s := s.withTb (mergedUnit s.tb)) hne' hfit' hrun, exec_tbBuild_of_fits hne hfit,
      exec_tbBuild_of_fits (s := s.withTb (mergedUnit s.tb)) hne' hfit', withTb_tb, build_mergedUnit hne]
    rfl

/-- Settles O30: each merge leaves what TB_BUILD would have built. -/
theorem buildAfterMergesIsBuild : Obligations.BuildAfterMergesIsBuild := by
  intro k s t hn hrun
  obtain ⟨hne, hfit⟩ := fits_of_firstError_tbBuild hn
  exact ⟨_, exec_of_no_error hn, (exec_tbBuild_after_merges k hne hfit hrun).trans (exec_of_no_error hn)⟩

/-! ## The finished tree -/

/-- Settles O31: the one entry of a complete tree is its root already. -/
theorem buildOfACompleteTreeChangesNothing : Obligations.BuildOfACompleteTreeChangesNothing := by
  intro s hi hroot
  obtain ⟨w, hw⟩ := hi.rootIsEntry hroot
  have hfit : totalWeight s.tb.pq ≤ maxWord := by
    rw [hw, totalWeight_cons, totalWeight_nil]
    exact Nat.le_of_lt_succ w.isLt
  rw [exec_tbBuild_of_fits (by simp [hw]) hfit, build_single _ hw, markRoot_of_single _ hw, ← hroot]
  rfl

/-- Settles O33: the one entry left is the root, it weighs what its node weighs, and the container weighs what the
leaves weigh. -/
theorem rootWeighsWhatTheLeavesWeigh : Obligations.RootWeighsWhatTheLeavesWeigh := by
  intro s hi hn
  obtain ⟨hne, hfit⟩ := fits_of_firstError_tbBuild hn
  have hbuilt := build_inv hi hne hfit
  obtain ⟨e, hpq, hroot, hrootv⟩ := build_pq hne
  have he : e ∈ s.tb.build.pq := by rw [hpq]; exact List.mem_singleton_self e
  have hslot := List.getElem?_eq_getElem (entry_inUse hbuilt he)
  refine ⟨_, _, exec_tbBuild_of_fits hne hfit, hrootv, by rw [withTb_tb, hroot, hslot], ?_⟩
  have hweight := hbuilt.entries e he
  have htotal := hbuilt.conserved
  rw [hpq, totalWeight_cons, totalWeight_nil, Nat.add_zero] at htotal
  rw [TreeUnit.weightAt, hslot] at hweight
  exact hweight.symm.trans htotal

/-! ## Determinism -/

/-- The checks of a tree builder command look at its unit and DATA only. -/
theorem firstError_congr_of_tree {i : Instr} (hi : isTreeCommand i = true) {s s' : State} (htb : s.tb = s'.tb)
    (hdata : s.data = s'.data) : firstError i s = firstError i s' := by
  cases i with
  | nop | clrerr | bpClear | bpPut | bpGet | bpRewind | bpSetlen => cases hi
  | _ => simp only [firstError, htb, hdata]

/-- A tree builder command's effect on its unit depends on the unit and DATA only. -/
theorem effect_tb_congr_of_tree {i : Instr} (hi : isTreeCommand i = true) {s s' : State} (htb : s.tb = s'.tb)
    (hdata : s.data = s'.data) : (effect i s).tb = (effect i s').tb := by
  cases i with
  | nop | clrerr | bpClear | bpPut | bpGet | bpRewind | bpSetlen => cases hi
  | tbMerge => rw [effect_tbMerge, effect_tbMerge, withTb_tb, withTb_tb, htb]
  | tbRead h => simp only [effect, htb]; split <;> [exact htb; rfl]
  | _ => simp only [effect, withTb_tb, htb, hdata]

theorem exec_tb_congr_of_tree {i : Instr} (hi : isTreeCommand i = true) {s s' : State} (htb : s.tb = s'.tb)
    (hdata : s.data = s'.data) : ∃ t t', exec i s = .next t ∧ exec i s' = .next t' ∧ t.tb = t'.tb := by
  have herr := firstError_congr_of_tree hi htb hdata
  cases he : firstError i s with
  | some e => exact ⟨_, _, exec_of_error he, exec_of_error (herr.symm.trans he), htb⟩
  | none =>
    exact ⟨_, _, exec_of_no_error he, exec_of_no_error (herr.symm.trans he), effect_tb_congr_of_tree hi htb hdata⟩

/-- The same tree builder commands on the same unit leave the same unit. -/
theorem runCommands_tb_congr (cmds : List (Word × Instr)) (hcmds : ∀ x ∈ cmds, isTreeCommand x.2 = true)
    {s s' : State} (htb : s.tb = s'.tb) :
    ∃ t t', runCommands cmds s = .next t ∧ runCommands cmds s' = .next t' ∧ t.tb = t'.tb := by
  induction cmds generalizing s s' with
  | nil => exact ⟨s, s', rfl, rfl, htb⟩
  | cons x cmds ih =>
    obtain ⟨v, i⟩ := x
    obtain ⟨hi, hcmds⟩ := List.forall_mem_cons.1 hcmds
    obtain ⟨t, t', ht, ht', htb'⟩ := exec_tb_congr_of_tree hi (s := s.withData v) (s' := s'.withData v) htb rfl
    simpa only [runCommands, ht, ht'] using ih hcmds htb'

/-- TB_CLEAR and reset both leave the empty unit (R113, R190). -/
theorem tb_of_clear_or_reset {s a : State}
    (h : exec .tbClear s = .next a ∨ ∃ rest, s.host = .reset :: rest ∧ step s = .next a) : a.tb = TreeUnit.empty := by
  rcases h with h | ⟨rest, hhost, h⟩
  · rw [exec_of_no_error rfl] at h
    rw [← Host.Outcome.next.inj h]
    rfl
  · rw [step_reset hhost] at h
    rw [← Host.Outcome.next.inj h]
    rfl

/-- Settles O34: both runs start from the empty unit. -/
theorem sameTreeCommandsBuildTheSameTree : Obligations.SameTreeCommandsBuildTheSameTree := by
  intro cmds s s' a a' hcmds ha ha'
  exact runCommands_tb_congr cmds hcmds ((tb_of_clear_or_reset ha).trans (tb_of_clear_or_reset ha').symm)

end Sys2Proof.Machine
end

section
/-! A lighter leaf is no shallower (41_tree_builder.md R124): nodes are merged in order of weight, whatever the
tie-break, so of two nodes of different weight the lighter is merged first, and its parent is the lighter of two
parents. O35. -/

namespace Sys2Proof.Machine

/-! ## The order of merges -/

/-- Nodes are merged in order of weight: what has become a child weighs no more than any entry left, and the children of
an earlier slot no more than those of a later one. -/
structure MergeOrder (t : TreeUnit) : Prop where
  childrenBelowEntries : ∀ n ∈ t.nodes, ∀ c ∈ n.children, ∀ e ∈ t.pq, t.weightAt c ≤ e.weight.toNat
  childrenRising : t.nodes.Pairwise (fun n m => ∀ c ∈ n.children, ∀ d ∈ m.children, t.weightAt c ≤ t.weightAt d)

/-- Before the first merge no node has a child (R46(f)). -/
theorem mergeOrder_of_unmerged {t : TreeUnit} (hi : t.Inv) (hm : t.merged = false) : MergeOrder t := by
  obtain ⟨hleaf, -⟩ := hi.unmerged hm
  have hchildless : ∀ n ∈ t.nodes, n.children = [] := by
    intro n hn
    have := hleaf n hn
    cases n with
    | leaf => rfl
    | internal => cases this
  constructor
  · intro n hn c hc
    simp [hchildless n hn] at hc
  · refine List.pairwise_of_forall_mem_list ?_
    intro n hn m _ c hc
    simp [hchildless n hn] at hc

/-- A child's handle is in use. -/
theorem child_inUse {t : TreeUnit} (hi : t.Inv) {n : Node} (hn : n ∈ t.nodes) {c : Handle} (hc : c ∈ n.children) :
    c.toNat < t.nodes.length :=
  hi.inUse c (List.mem_append_left _ (List.mem_flatMap.2 ⟨n, hn, hc⟩))

/-- Every entry after a merge of the two lightest weighs at least as much as each of them. -/
theorem weight_le_of_mem_mergeOf_pq {t : TreeUnit} {a b e : Entry}
    (hmin : ∀ x ∈ t.pq, a.weight.toNat ≤ x.weight.toNat)
    (hmin2 : ∀ x ∈ t.pq.erase a, b.weight.toNat ≤ x.weight.toNat)
    (hfit : a.weight.toNat + b.weight.toNat ≤ maxWord) (he : e ∈ (mergeOf t a b).pq) :
    a.weight.toNat ≤ e.weight.toNat ∧ b.weight.toNat ≤ e.weight.toNat := by
  rcases List.mem_append.1 he with hrest | hnew
  · have hrest := List.mem_of_mem_erase hrest
    exact ⟨hmin e (List.mem_of_mem_erase hrest), hmin2 e hrest⟩
  · have hw := toNat_ofNat_weight hfit
    rw [List.mem_singleton.1 hnew]
    simp only
    omega

/-- A merge of the two lightest entries keeps the order. -/
theorem mergeOrder_mergeOf {t : TreeUnit} (hi : t.Inv) (ho : MergeOrder t) {a b : Entry} (ha : a ∈ t.pq)
    (hb : b ∈ t.pq.erase a) (hmin : ∀ x ∈ t.pq, a.weight.toNat ≤ x.weight.toNat)
    (hmin2 : ∀ x ∈ t.pq.erase a, b.weight.toNat ≤ x.weight.toNat)
    (hfit : a.weight.toNat + b.weight.toNat ≤ maxWord) : MergeOrder (mergeOf t a b) := by
  obtain ⟨hbelow, hrising⟩ := ho
  have hb' := List.mem_of_mem_erase hb
  have hnodes : (mergeOf t a b).nodes =
    t.nodes ++ [.internal (BitVec.ofNat 32 (a.weight.toNat + b.weight.toNat)) a.handle b.handle] := rfl
  have hold : ∀ n ∈ t.nodes, ∀ c ∈ n.children, (mergeOf t a b).weightAt c = t.weightAt c :=
    fun n hn c hc => weightAt_of_append hnodes (child_inUse hi hn hc)
  have hwa : (mergeOf t a b).weightAt a.handle = a.weight.toNat := by
    rw [weightAt_of_append hnodes (entry_inUse hi ha), hi.entries a ha]
  have hwb : (mergeOf t a b).weightAt b.handle = b.weight.toNat := by
    rw [weightAt_of_append hnodes (entry_inUse hi hb'), hi.entries b hb']
  constructor
  · intro n hn c hc e he
    obtain ⟨hea, heb⟩ := weight_le_of_mem_mergeOf_pq hmin hmin2 hfit he
    rw [hnodes] at hn
    rcases List.mem_append.1 hn with hn | hn
    · rw [hold n hn c hc]
      exact (hbelow n hn c hc a ha).trans hea
    · rw [List.mem_singleton.1 hn] at hc
      simp only [Node.children, List.mem_cons, List.not_mem_nil, or_false] at hc
      rcases hc with rfl | rfl
      · exact hwa.trans_le hea
      · exact hwb.trans_le heb
  · rw [hnodes, List.pairwise_append]
    refine ⟨hrising.imp_of_mem ?_, List.pairwise_singleton _ _, ?_⟩
    · intro n m hn hm hnm c hc d hd
      rw [hold n hn c hc, hold m hm d hd]
      exact hnm c hc d hd
    · intro n hn m hm c hc d hd
      rw [hold n hn c hc]
      rw [List.mem_singleton.1 hm] at hd
      simp only [Node.children, List.mem_cons, List.not_mem_nil, or_false] at hd
      rcases hd with rfl | rfl
      · exact (hbelow n hn c hc a ha).trans_eq hwa.symm
      · exact (hbelow n hn c hc b hb').trans_eq hwb.symm

/-- The order speaks of the slots and the container only. -/
theorem MergeOrder.of_eq {t u : TreeUnit} (h : MergeOrder t) (hnodes : u.nodes = t.nodes) (hpq : u.pq = t.pq) :
    MergeOrder u := by
  have hweight : u.weightAt = t.weightAt := by
    funext c
    rw [TreeUnit.weightAt, TreeUnit.weightAt, hnodes]
  constructor
  · rw [hnodes, hpq, hweight]
    exact h.childrenBelowEntries
  · rw [hnodes, hweight]
    exact h.childrenRising

/-- The loop of a TB_BUILD keeps the order, and so does the root's mark. -/
theorem mergeOrder_build {t : TreeUnit} (hi : t.Inv) (ho : MergeOrder t) (hfit : totalWeight t.pq ≤ maxWord) :
    MergeOrder t.build := by
  obtain ⟨-, hloop⟩ := mergeLoop_induction (P := fun u => u.Inv ∧ MergeOrder u)
    (fun u a b ⟨hui, huo⟩ ha hb hmin hmin2 hsum =>
      ⟨mergeOf_inv hui ha hb hsum, mergeOrder_mergeOf hui huo ha hb hmin hmin2 hsum⟩) t.pq.length t ⟨hi, ho⟩ hfit
  exact hloop.of_eq (markRoot_nodes _) (markRoot_pq _)

/-! ## Parents -/

/-- A parent is a node in use that has the handle as a child. -/
theorem parent_spec {t : TreeUnit} {h : Handle} {p : Nat} (hp : t.parent? h = some p) :
    ∃ hlt : p < t.nodes.length, h ∈ t.nodes[p].children := by
  obtain ⟨hlt, hchild, -⟩ := List.findIdx?_eq_some_iff_getElem.1 hp
  exact ⟨hlt, by simpa using hchild⟩

/-- Every node in use has a parent or is an entry (R46(b)). -/
theorem parent_or_entry {t : TreeUnit} (hi : t.Inv) {h : Handle} (hlt : h.toNat < t.nodes.length) :
    (∃ p, t.parent? h = some p) ∨ ∃ e ∈ t.pq, e.handle = h := by
  have hused : h ∈ t.uses := List.count_pos_iff.1 (by rw [hi.owned h hlt]; exact Nat.one_pos)
  rcases List.mem_append.1 hused with hchild | hentry
  · obtain ⟨n, hn, hc⟩ := List.mem_flatMap.1 hchild
    have hsome : (t.parent? h).isSome = true :=
      List.findIdx?_isSome.trans (List.any_eq_true.2 ⟨n, hn, by simpa using hc⟩)
    exact Or.inl (Option.isSome_iff_exists.1 hsome)
  · exact Or.inr (List.mem_map.1 hentry)

/-- Of two nodes the one with a lighter child, and no child heavier than one of the other's, is the lighter (R46(a)). -/
theorem nodeWeight_lt_of_children {t : TreeUnit} (hi : t.Inv) {p q : Nat} {n m : Node} {x y : Handle}
    (hp : t.nodes[p]? = some n) (hq : t.nodes[q]? = some m) (hx : x ∈ n.children) (hy : y ∈ m.children)
    (hle : ∀ c ∈ n.children, ∀ d ∈ m.children, t.weightAt c ≤ t.weightAt d) (hlt : t.weightAt x < t.weightAt y) :
    (nodeWeight n).toNat < (nodeWeight m).toNat := by
  cases n with
  | leaf => cases hx
  | internal w l r =>
    cases m with
    | leaf => cases hy
    | internal w' l' r' =>
      obtain ⟨-, -, -, hw⟩ := hi.children p w l r hp
      obtain ⟨-, -, -, hw'⟩ := hi.children q w' l' r' hq
      simp only [Node.children, List.forall_mem_cons] at hle
      obtain ⟨⟨hll, hlr, -⟩, ⟨hrl, hrr, -⟩, -⟩ := hle
      simp only [Node.children, List.mem_cons, List.not_mem_nil, or_false] at hx hy
      simp only [nodeWeight, hw, hw']
      rcases hx with rfl | rfl <;> rcases hy with rfl | rfl <;> omega

/-- A slot's number fits a handle (R10). -/
theorem toNat_ofNat_slot {t : TreeUnit} (hi : t.Inv) {p : Nat} (hlt : p < t.nodes.length) :
    (BitVec.ofNat 9 p).toNat = p := by
  obtain ⟨hcap, -⟩ := hi.capacity
  exact toNat_ofNat_handle (hlt.trans_le (hcap.trans (by decide)))

/-- A slot's weight is its node's. -/
theorem weightAt_of_slot {t : TreeUnit} (hi : t.Inv) {p : Nat} {n : Node} (hp : t.nodes[p]? = some n) :
    t.weightAt (BitVec.ofNat 9 p) = (nodeWeight n).toNat := by
  obtain ⟨hlt, -⟩ := List.getElem?_eq_some_iff.1 hp
  rw [TreeUnit.weightAt, toNat_ofNat_slot hi hlt, hp]

/-! ## Depths -/

/-- A strictly lighter node is at least as deep, by induction on the climb: its parent is the same, or one made
earlier and strictly lighter. -/
theorem depthWithin_le_of_lighter {t : TreeUnit} (hi : t.Inv) (ho : MergeOrder t) (fuel : Nat) {x y : Handle}
    (hx : x.toNat < t.nodes.length) (hlt : t.weightAt x < t.weightAt y) :
    t.depthWithin fuel y ≤ t.depthWithin fuel x := by
  induction fuel generalizing x y with
  | zero => exact Nat.le_refl 0
  | succ fuel ih =>
    cases hy : t.parent? y with
    | none => simp only [TreeUnit.depthWithin, hy]; exact Nat.zero_le _
    | some q =>
      obtain ⟨hq, hyq⟩ := parent_spec hy
      rcases parent_or_entry hi hx with ⟨p, hpx⟩ | ⟨e, he, rfl⟩
      · obtain ⟨hp, hxp⟩ := parent_spec hpx
        simp only [TreeUnit.depthWithin, hpx, hy]
        have hrising := List.pairwise_iff_getElem.1 ho.childrenRising
        rcases Nat.lt_trichotomy p q with hpq | rfl | hqp
        · have hparents := nodeWeight_lt_of_children hi (List.getElem?_eq_getElem hp) (List.getElem?_eq_getElem hq)
            hxp hyq (hrising p q hp hq hpq) hlt
          rw [← weightAt_of_slot hi (List.getElem?_eq_getElem hp),
            ← weightAt_of_slot hi (List.getElem?_eq_getElem hq)] at hparents
          exact Nat.add_le_add_left (ih (by rwa [toNat_ofNat_slot hi hp]) hparents) 1
        · exact Nat.le_refl _
        · exact absurd (hrising q p hq hp hqp y hyq x hxp) (Nat.not_le.2 hlt)
      · have hle := ho.childrenBelowEntries _ (List.getElem_mem hq) y hyq e he
        rw [hi.entries e he] at hle
        exact absurd hle (Nat.not_le.2 hlt)

/-! ## Loading the leaves -/

/-- A loaded leaf (R114). -/
theorem exec_tbLeaf_of_loadable {s : State} {sym : Symbol} (hw : s.data ≠ 0#32) (hm : s.tb.merged = false)
    (hs : sym ∉ s.tb.loaded) : exec (.tbLeaf sym) s = .next (s.withTb (s.tb.addLeaf sym s.data)) :=
  exec_of_no_error (by simp [firstError_tbLeaf, hw, hm, hs])

/-- New distinct symbols with weights of at least 1 are all loaded, each with an entry of its weight. -/
theorem run_leafCommands (leaves : List (Symbol × Word)) (hdistinct : (leaves.map Prod.fst).Nodup)
    (hweights : ∀ l ∈ leaves, l.2 ≠ 0#32) {s : State} (hi : s.tb.Inv) (hm : s.tb.merged = false)
    (hnew : ∀ l ∈ leaves, l.1 ∉ s.tb.loaded) :
    ∃ t, runCommands (leafCommands leaves) s = .next t ∧ t.tb.Inv ∧ t.tb.merged = false ∧
      t.tb.pq.length = s.tb.pq.length + leaves.length ∧
      totalWeight t.tb.pq = totalWeight s.tb.pq + (leaves.map (fun l => l.2.toNat)).sum := by
  induction leaves generalizing s with
  | nil => exact ⟨s, rfl, hi, hm, rfl, rfl⟩
  | cons l leaves ih =>
    obtain ⟨sym, w⟩ := l
    obtain ⟨hw, hweights⟩ := List.forall_mem_cons.1 hweights
    obtain ⟨hsym, hnew⟩ := List.forall_mem_cons.1 hnew
    rw [List.map_cons, List.nodup_cons] at hdistinct
    obtain ⟨hfresh, hdistinct⟩ := hdistinct
    have hload : exec (.tbLeaf sym) (s.withData w) = .next ((s.withData w).withTb (s.tb.addLeaf sym w)) :=
      exec_tbLeaf_of_loadable hw hm hsym
    have hstill : ∀ l ∈ leaves, l.1 ∉ (s.tb.addLeaf sym w).loaded := by
      intro l hl hmem
      rcases (mem_insertSymbol sym l.1 s.tb.loaded).1 hmem with heq | hold
      · exact hfresh (List.mem_map.2 ⟨l, hl, heq⟩)
      · exact hnew l hl hold
    obtain ⟨t, hrun, hti, htm, hlen, htotal⟩ := ih hdistinct hweights
      (s := (s.withData w).withTb (s.tb.addLeaf sym w)) (addLeaf_inv hi hw hm hsym) hm hstill
    refine ⟨t, ?_, hti, htm, ?_, ?_⟩
    · rw [← hrun]
      simp only [leafCommands, List.map_cons, runCommands, hload]
    · rw [hlen]
      simp only [withTb_tb, addLeaf_pq, List.length_append, List.length_cons, List.length_nil]
      omega
    · rw [htotal]
      simp only [withTb_tb, addLeaf_pq, totalWeight_append, totalWeight_cons, totalWeight_nil, List.map_cons,
        List.sum_cons]
      omega

/-- Settles O35: the leaves load, the build keeps the order of merges, and the order bounds the depths. -/
theorem lighterLeavesAreNoShallower : Obligations.LighterLeavesAreNoShallower := by
  intro s leaves hne hdistinct hweights hfit
  obtain ⟨b, hrun, hi, hm, hlen, htotal⟩ := run_leafCommands leaves hdistinct hweights
    (s := s.withTb TreeUnit.empty) empty_inv rfl (by simp [TreeUnit.empty])
  have hpq : b.tb.pq ≠ [] := by
    rw [← List.length_pos_iff, hlen]
    exact Nat.lt_add_left _ (List.length_pos_iff.2 hne)
  have hbfit : totalWeight b.tb.pq ≤ maxWord := by
    rw [htotal]
    exact (Nat.zero_add _).trans_le hfit
  obtain ⟨-, -, -, hrootv⟩ := build_pq hpq
  have hti := build_inv hi hpq hbfit
  have hto := mergeOrder_build hi (mergeOrder_of_unmerged hi hm) hbfit
  refine ⟨_, b, _, exec_of_no_error rfl, hrun, exec_tbBuild_of_fits hpq hbfit, hrootv, ?_⟩
  intro i j x y u v hx hy hlt
  obtain ⟨hxlt, -⟩ := List.getElem?_eq_some_iff.1 hx
  refine depthWithin_le_of_lighter hti hto _ ?_ ?_
  · rwa [toNat_ofNat_slot hti hxlt]
  · rw [weightAt_of_slot hti hx, weightAt_of_slot hti hy]
    exact hlt

end Sys2Proof.Machine
end

section
/-! Appends compose (42_bit_packer.md R145), and the barrel-shifter form of one append (R146). O41 and O42. -/

namespace Sys2Proof.Machine

/-! ## One put -/

/-- BP_PUT of a legal width that fits appends the field (R141). -/
theorem exec_bpPut_of_fits {s : State} {w : Nat} (h1 : 1 ≤ w) (h32 : w ≤ 32)
    (hfit : s.bp.bitcnt + w ≤ 8 * s.params.pbufBytes) :
    exec (.bpPut w) s = .next (s.withBp (s.bp.append (fieldBits s.data w))) :=
  exec_of_no_error ((if_neg (not_illegal_width h1 h32)).trans (if_neg (Nat.not_lt.2 hfit)))

/-! ## Two appends -/

/-- Equal counts, registers and streams are equal units. -/
theorem BitPacker.ext_of_streamBit {b c : BitPacker} (hb : Memory.wf b.pbuf) (hc : Memory.wf c.pbuf)
    (hcnt : b.bitcnt = c.bitcnt) (hrd : b.rdpos = c.rdpos) (hres : b.result = c.result)
    (hbits : ∀ q, streamBit b.pbuf q = streamBit c.pbuf q) : b = c := by
  have hpbuf := Machine.ext_of_streamBit hb hc hbits
  obtain ⟨pbuf, bitcnt, rdpos, result⟩ := b
  obtain ⟨pbuf', bitcnt', rdpos', result'⟩ := c
  rw [BitPacker.mk.injEq]
  exact ⟨hpbuf, hcnt, hrd, hres⟩

/-- Appending twice is appending the two strings in one (R145). -/
theorem append_append {b : BitPacker} (hm : Memory.wf b.pbuf) (f1 f2 : List Bool) :
    (b.append f1).append f2 = b.append (f1 ++ f2) := by
  have hm1 := wf_append hm f1
  refine BitPacker.ext_of_streamBit (wf_append hm1 f2) (wf_append hm _) (by simp; omega) rfl rfl (fun q => ?_)
  rw [streamBit_append hm1, streamBit_append hm, streamBit_append hm, append_bitcnt, List.length_append,
    ← Nat.add_assoc]
  by_cases hold : q < b.bitcnt
  · rw [if_pos (by omega), if_pos hold, if_pos hold]
  by_cases hfirst : q < b.bitcnt + f1.length
  · rw [if_pos hfirst, if_neg hold, if_pos hfirst, if_neg hold, if_pos (by omega),
      List.getD_append _ _ _ _ (by omega)]
  by_cases hsecond : q < b.bitcnt + f1.length + f2.length
  · rw [if_neg hfirst, if_pos hsecond, if_neg hold, if_pos hsecond, List.getD_append_right _ _ _ _ (by omega),
      Nat.sub_add_eq]
  -- past both strings: the first one's final byte ends no later than the second one's
  have hend : byteEnd (b.bitcnt + f1.length) ≤ byteEnd (b.bitcnt + f1.length + f2.length) := by
    unfold byteEnd
    omega
  rw [if_neg hfirst, if_neg hsecond, if_neg hold, if_neg hsecond, if_neg hold, if_neg hfirst]
  by_cases hpad : q < byteEnd (b.bitcnt + f1.length + f2.length)
  · rw [if_pos hpad, if_pos hpad]
  · rw [if_neg hpad, if_neg hpad, if_neg (by omega)]

/-! ## Bit strings and numbers -/

/-- A bit string of known length is determined by the number it stands for. -/
theorem eq_of_bitsValue_eq {xs ys : List Bool} (hlen : xs.length = ys.length) (h : bitsValue xs = bitsValue ys) :
    xs = ys := by
  refine List.ext_getElem hlen (fun i hx hy => ?_)
  have hbit := congrArg (fun n => n.testBit (xs.length - 1 - i)) h
  simp only [bitsValue_testBit] at hbit
  rw [if_pos (by omega), if_pos (by omega), ← hlen, show xs.length - 1 - (xs.length - 1 - i) = i by omega,
    List.getD_eq_getElem _ _ hx, List.getD_eq_getElem _ _ hy] at hbit
  exact hbit

/-- The bits of the number a string of up to 32 bits stands for are the string (R141, R142). -/
theorem fieldBits_ofNat_bitsValue {bits : List Bool} (h : bits.length ≤ 32) :
    fieldBits (BitVec.ofNat 32 (bitsValue bits)) bits.length = bits := by
  have hlt := bitsValue_lt bits
  refine eq_of_bitsValue_eq (fieldBits_length _ _) ?_
  rw [bitsValue_fieldBits, BitVec.toNat_ofNat,
    Nat.mod_eq_of_lt (hlt.trans_le (Nat.pow_le_pow_right (by decide) h)), Nat.mod_eq_of_lt hlt]

/-- Two fields side by side are the field of v1·2^w2 + v2 (R145). -/
theorem fieldBits_concat (v1 v2 : Word) {w1 w2 : Nat} (h : w1 + w2 ≤ 32) :
    fieldBits (BitVec.ofNat 32 ((v1.toNat % 2 ^ w1) * 2 ^ w2 + v2.toNat % 2 ^ w2)) (w1 + w2) =
      fieldBits v1 w1 ++ fieldBits v2 w2 := by
  have hbits := fieldBits_ofNat_bitsValue (bits := fieldBits v1 w1 ++ fieldBits v2 w2) (by simpa using h)
  simpa [bitsValue_append, bitsValue_fieldBits] using hbits

/-- Settles O41: appends compose, and the combined operand's field is the two fields side by side. -/
theorem twoPutsConcatenate : Obligations.TwoPutsConcatenate := by
  refine ⟨fun b f1 f2 hm => append_append hm f1 f2, fun s v1 v2 w1 w2 hm h1 h2 h32 hfit => ?_⟩
  refine ⟨_, _, _, exec_bpPut_of_fits (s := s.withData v1) h1 (by omega) (Nat.le_of_add_right_le hfit),
    exec_bpPut_of_fits h2 (by omega) ?_, exec_bpPut_of_fits (by omega) h32 ?_, ?_⟩
  · simpa using hfit
  · simpa [Nat.add_assoc] using hfit
  · simp only [withBp_bp, withData_bp, withData_data]
    rw [append_append hm, fieldBits_concat v1 v2 h32]

/-! ## Whole bytes -/

theorem wf_writeBytes {m : Memory} (hm : Memory.wf m) (j : Nat) (xs : List Byte) : Memory.wf (writeBytes m j xs) := by
  induction xs generalizing m j with
  | nil => exact hm
  | cons x xs ih => exact ih (Memory.wf_write hm j x) (j + 1)

/-- What writing consecutive bytes does to every byte. -/
theorem read_writeBytes {m : Memory} (hm : Memory.wf m) (j i : Nat) (xs : List Byte) :
    Memory.read (writeBytes m j xs) i =
      if j ≤ i ∧ i < j + xs.length then xs.getD (i - j) 0#8 else Memory.read m i := by
  induction xs generalizing m j with
  | nil => rw [writeBytes, if_neg (by simp)]
  | cons x xs ih =>
    rw [writeBytes, ih (Memory.wf_write hm j x), Memory.read_write hm, List.length_cons]
    rcases Nat.lt_trichotomy i j with hlow | rfl | hhigh
    · rw [if_neg (by omega), if_neg (by omega), if_neg (by omega)]
    · rw [if_neg (by omega), if_pos rfl, if_pos (by omega), Nat.sub_self, List.getD_cons_zero]
    · obtain ⟨k, rfl⟩ : ∃ k, i = j + 1 + k := ⟨i - (j + 1), by omega⟩
      rw [if_neg (show j + 1 + k ≠ j by omega), show j + 1 + k - (j + 1) = k by omega,
        show j + 1 + k - j = k + 1 by omega, List.getD_cons_succ]
      exact if_congr (by omega) rfl rfl

/-- The number of bytes R146 writes: ⌈(BITCNT mod 8 + w) / 8⌉. -/
def barrelCount (b : BitPacker) (w : Nat) : Nat := (b.bitcnt % 8 + w + 7) / 8

@[simp] theorem barrelBytes_length (b : BitPacker) (v : Word) (w : Nat) :
    (barrelBytes b v w).length = barrelCount b w := by
  simp [barrelBytes, barrelCount]

/-- Bit r of R146's bytes, the first byte's most significant first: the pending bits, the field, then zeros. -/
theorem barrelBytes_bit (b : BitPacker) (v : Word) (w : Nat) {r : Nat} (hr : r < 8 * barrelCount b w) :
    ((barrelBytes b v w).getD (r / 8) 0#8).getLsbD (7 - r % 8) =
      if r < b.bitcnt % 8 then (Memory.read b.pbuf (b.bitcnt / 8)).getLsbD (7 - r)
      else if r < b.bitcnt % 8 + w then v.getLsbD (w - 1 - (r - b.bitcnt % 8))
      else false := by
  have hcount : b.bitcnt % 8 + w ≤ 8 * barrelCount b w := by unfold barrelCount; omega
  have hk : r / 8 < (barrelBytes b v w).length := by rw [barrelBytes_length]; omega
  rw [List.getD_eq_getElem _ _ hk]
  simp only [barrelBytes, List.getElem_map, List.getElem_range]
  rw [← barrelCount, BitVec.getLsbD_ofNat, Nat.testBit_shiftRight, Nat.testBit_mul_two_pow, Nat.mul_comm _ (2 ^ w),
    Nat.testBit_two_pow_mul_add _ (Nat.mod_lt _ (Nat.two_pow_pos w)), Nat.testBit_shiftRight, Nat.testBit_mod_two_pow,
    show 8 * (barrelCount b w - 1 - r / 8) + (7 - r % 8) = 8 * barrelCount b w - 1 - r by omega,
    decide_eq_true (show 7 - r % 8 < 8 by omega), Bool.true_and]
  by_cases hpending : r < b.bitcnt % 8
  · rw [if_pos hpending, decide_eq_true (by omega), if_neg (by omega), Bool.true_and]
    exact congrArg (Memory.read b.pbuf (b.bitcnt / 8)).toNat.testBit (by omega)
  rw [if_neg hpending]
  by_cases hfield : r < b.bitcnt % 8 + w
  · rw [if_pos hfield, decide_eq_true (by omega), if_pos (by omega), Bool.true_and, decide_eq_true (by omega),
      Bool.true_and]
    exact congrArg v.toNat.testBit (by omega)
  · rw [if_neg hfield, decide_eq_false (by omega), Bool.false_and]

/-- What the barrel-shifter form does to every position: its bytes' bits in the bytes it writes, old bits elsewhere. -/
theorem streamBit_barrelPut {b : BitPacker} (hm : Memory.wf b.pbuf) (v : Word) (w q : Nat) :
    streamBit (b.barrelPut v w).pbuf q =
      if q < b.bitcnt then streamBit b.pbuf q
      else if q < b.bitcnt + w then v.getLsbD (w - 1 - (q - b.bitcnt))
      else if q < byteEnd (b.bitcnt + w) then false
      else streamBit b.pbuf q := by
  have hend : byteEnd (b.bitcnt + w) = 8 * (b.bitcnt / 8) + 8 * barrelCount b w := by
    unfold byteEnd barrelCount
    omega
  have hcount : b.bitcnt % 8 + w ≤ 8 * barrelCount b w := by unfold barrelCount; omega
  rw [streamBit, BitPacker.barrelPut, read_writeBytes hm, barrelBytes_length, bitIndex, hend]
  by_cases hbefore : q < 8 * (b.bitcnt / 8)
  · rw [if_neg (by omega), if_pos (by omega)]
    rfl
  obtain ⟨r, rfl⟩ := Nat.exists_eq_add_of_le (Nat.le_of_not_lt hbefore)
  by_cases hin : r < 8 * barrelCount b w
  · rw [if_pos (by omega), show (8 * (b.bitcnt / 8) + r) / 8 - b.bitcnt / 8 = r / 8 by omega,
      show (8 * (b.bitcnt / 8) + r) % 8 = r % 8 by omega, barrelBytes_bit b v w hin]
    by_cases hpending : r < b.bitcnt % 8
    · rw [if_pos hpending, if_pos (by omega), streamBit, bitIndex,
        show (8 * (b.bitcnt / 8) + r) / 8 = b.bitcnt / 8 by omega, show (8 * (b.bitcnt / 8) + r) % 8 = r by omega]
    rw [if_neg hpending, if_neg (show ¬8 * (b.bitcnt / 8) + r < b.bitcnt by omega)]
    by_cases hfield : r < b.bitcnt % 8 + w
    · rw [if_pos hfield, if_pos (by omega),
        show 8 * (b.bitcnt / 8) + r - b.bitcnt = r - b.bitcnt % 8 by omega]
    · rw [if_neg hfield, if_neg (by omega), if_pos (by omega)]
  · rw [if_neg (by omega), if_neg (by omega), if_neg (by omega), if_neg (by omega)]
    rfl

/-- Settles O42: both forms set the same bits, so their buffers are the same data. -/
theorem barrelShifterFormEqualsBpPut : Obligations.BarrelShifterFormEqualsBpPut := by
  intro s w hm h1 h32 hfit
  rw [exec_bpPut_of_fits h1 h32 hfit]
  have hbp : s.bp.append (fieldBits s.data w) = s.bp.barrelPut s.data w := by
    refine BitPacker.ext_of_streamBit (wf_append hm _) (wf_writeBytes hm _ _) (by simp [BitPacker.barrelPut]) rfl rfl
      (fun q => ?_)
    rw [streamBit_append hm, streamBit_barrelPut hm, fieldBits_length]
    by_cases hold : q < s.bp.bitcnt
    · rw [if_pos hold, if_pos hold]
    rw [if_neg hold, if_neg hold]
    exact ite_congr rfl (fun hnew => fieldBits_getD s.data (by omega)) (fun _ => rfl)
  rw [hbp]
  rfl

end Sys2Proof.Machine
end

section
/-! Streams written by a run of puts and read by a run of gets (42_bit_packer.md R147, R148, R149). O43, O44 and O45. -/

namespace Sys2Proof.Machine

/-! ## A run of puts -/

/-- The fields' total width is the number of their bits. -/
theorem fieldsBits_length (fields : List (Word × Nat)) : (fieldsBits fields).length = (fields.map Prod.snd).sum := by
  simp [fieldsBits, List.length_flatMap]

/-- Puts of legal widths that fit append their fields in order and change nothing else but DATA (R145, R147). -/
theorem run_putCommands (fields : List (Word × Nat)) (hne : fields ≠ []) (hlegal : ∀ f ∈ fields, 1 ≤ f.2 ∧ f.2 ≤ 32)
    {s : State} (hm : Memory.wf s.bp.pbuf)
    (hfit : s.bp.bitcnt + (fields.map Prod.snd).sum ≤ 8 * s.params.pbufBytes) :
    ∃ v, runCommands (putCommands fields) s =
      .next ((s.withData v).withBp (s.bp.append (fieldsBits fields))) := by
  induction fields generalizing s with
  | nil => exact absurd rfl hne
  | cons f fields ih =>
    obtain ⟨v, w⟩ := f
    obtain ⟨⟨h1, h32⟩, hlegal⟩ := List.forall_mem_cons.1 hlegal
    rw [List.map_cons, List.sum_cons, ← Nat.add_assoc] at hfit
    have hput : exec (.bpPut w) (s.withData v) =
        .next ((s.withData v).withBp (s.bp.append (fieldBits v w))) :=
      exec_bpPut_of_fits h1 h32 (Nat.le_of_add_right_le hfit)
    have hrest : runCommands (putCommands ((v, w) :: fields)) s =
        runCommands (putCommands fields) ((s.withData v).withBp (s.bp.append (fieldBits v w))) := by
      simp only [putCommands, List.map_cons, runCommands, hput]
    rw [hrest, fieldsBits, List.flatMap_cons]
    by_cases hlast : fields = []
    · subst hlast
      rw [List.flatMap_nil, List.append_nil]
      exact ⟨v, rfl⟩
    · obtain ⟨v', hrun⟩ := ih hlast hlegal (s := (s.withData v).withBp (s.bp.append (fieldBits v w)))
        (wf_append hm _) (by simpa using hfit)
      rw [hrun, ← append_append hm]
      exact ⟨v', rfl⟩

/-- Puts from BP_CLEAR leave the fields' bits as the whole stream (R140, R147). -/
theorem run_putCommands_from_clear {s : State} (fields : List (Word × Nat))
    (hlegal : ∀ f ∈ fields, 1 ≤ f.2 ∧ f.2 ≤ 32) (hfit : (fields.map Prod.snd).sum ≤ 8 * s.params.pbufBytes) :
    ∃ v, runCommands (putCommands fields) (s.withBp BitPacker.empty) =
      .next ((s.withData v).withBp (BitPacker.empty.append (fieldsBits fields))) := by
  by_cases hne : fields = []
  · subst hne
    exact ⟨s.data, rfl⟩
  · exact run_putCommands fields hne hlegal (s := s.withBp BitPacker.empty) Memory.wf_nil
      ((Nat.zero_add _).trans_le hfit)

/-- The stream of an append to the empty unit is the string, then zeros. -/
theorem streamBit_empty_append (bits : List Bool) (q : Nat) :
    streamBit (BitPacker.empty.append bits).pbuf q = bits.getD q false := by
  have hzero : streamBit BitPacker.empty.pbuf q = false := by simp [streamBit, BitPacker.empty]
  rw [streamBit_append Memory.wf_nil, hzero, show BitPacker.empty.bitcnt = 0 from rfl, if_neg (Nat.not_lt_zero q),
    ite_self, Nat.zero_add, Nat.sub_zero]
  by_cases hin : q < bits.length
  · rw [if_pos hin]
  · rw [if_neg hin, List.getD_eq_default _ _ (Nat.le_of_not_lt hin)]

/-- Settles O43: the run leaves the empty unit with the fields' bits appended. -/
theorem packContract : Obligations.PackContract := by
  intro s fields hlegal hfit
  obtain ⟨v, hrun⟩ := run_putCommands_from_clear fields hlegal hfit
  refine ⟨_, _, exec_of_no_error rfl, hrun, rfl, rfl, ?_, rfl, streamBit_empty_append _⟩
  rw [withBp_bp, append_bitcnt, fieldsBits_length]
  exact Nat.zero_add _

/-! ## A run of gets -/

/-- The words BP_GETs of the given widths read from position p on (R142). -/
def fieldValues (m : Memory) : Nat → List Nat → List Word
  | _, [] => []
  | p, w :: ws => BitVec.ofNat 32 (bitsValue (readBits m p w)) :: fieldValues m (p + w) ws

/-- BP_GET of a legal width within the stream (R142). -/
theorem exec_bpGet_of_fits {s : State} {w : Nat} (h1 : 1 ≤ w) (h32 : w ≤ 32)
    (hfit : s.bp.rdpos + w ≤ s.bp.bitcnt) : exec (.bpGet w) s = .next (s.withBp (s.bp.take w)) :=
  exec_of_no_error ((if_neg (not_illegal_width h1 h32)).trans (if_neg (Nat.not_lt.2 hfit)))

/-- Gets of legal widths within the stream read it in order and change nothing but RDPOS and RESULT. -/
theorem getFields_eq (ws : List Nat) (hlegal : ∀ w ∈ ws, 1 ≤ w ∧ w ≤ 32) {s : State}
    (hfit : s.bp.rdpos + ws.sum ≤ s.bp.bitcnt) :
    ∃ r, getFields ws s = some (fieldValues s.bp.pbuf s.bp.rdpos ws,
      s.withBp { s.bp with rdpos := s.bp.rdpos + ws.sum, result := r }) := by
  induction ws generalizing s with
  | nil => exact ⟨s.bp.result, rfl⟩
  | cons w ws ih =>
    obtain ⟨⟨h1, h32⟩, hlegal⟩ := List.forall_mem_cons.1 hlegal
    rw [List.sum_cons] at hfit
    obtain ⟨r, hrest⟩ := ih hlegal (s := s.withBp (s.bp.take w))
      (by simp only [withBp_bp, take_rdpos, take_bitcnt]; omega)
    refine ⟨r, ?_⟩
    have hget := exec_bpGet_of_fits h1 h32 (show s.bp.rdpos + w ≤ s.bp.bitcnt by omega)
    simp only [getFields, hget, hrest, Option.map_some]
    rw [List.sum_cons, ← Nat.add_assoc]
    rfl

/-- Reading a + b bits is reading a and then b. -/
theorem readBits_add (m : Memory) (p a b : Nat) : readBits m p (a + b) = readBits m p a ++ readBits m (p + a) b := by
  simp [readBits, List.range_add, Nat.add_assoc]

/-- A stream that holds fields in order is read back as their values (R148). -/
theorem fieldValues_of_fieldsBits {m : Memory} (fields : List (Word × Nat)) {p : Nat}
    (h : readBits m p (fields.map Prod.snd).sum = fieldsBits fields) :
    fieldValues m p (fields.map Prod.snd) = fields.map (fun f => BitVec.ofNat 32 (f.1.toNat % 2 ^ f.2)) := by
  induction fields generalizing p with
  | nil => rfl
  | cons f fields ih =>
    obtain ⟨v, w⟩ := f
    rw [List.map_cons, List.sum_cons, readBits_add, fieldsBits, List.flatMap_cons] at h
    obtain ⟨hfirst, hrest⟩ := List.append_inj h (by simp)
    rw [List.map_cons, fieldValues, ih hrest, hfirst, bitsValue_fieldBits, List.map_cons]

/-- An append to the empty unit is read back from position 0. -/
theorem readBits_empty_append (bits : List Bool) :
    readBits (BitPacker.empty.append bits).pbuf 0 bits.length = bits := by
  refine List.ext_getElem (by simp) (fun i hi hi' => ?_)
  simp only [readBits, List.getElem_map, List.getElem_range, Nat.zero_add, streamBit_empty_append]
  exact List.getD_eq_getElem _ _ hi'

/-- At the end of the stream a BP_GET of a legal width raises BitRequestOutOfRange (R142). -/
theorem exec_bpGet_at_end {s : State} (hend : s.bp.rdpos = s.bp.bitcnt) {w : Nat} (h1 : 1 ≤ w) (h32 : w ≤ 32) :
    exec (.bpGet w) s = .next (s.recorded 0x22#8 0x02#8) :=
  exec_of_error_recorded (e := .bitRequestOutOfRange)
    ((if_neg (not_illegal_width h1 h32)).trans (if_pos (by omega)))

/-- The stream holds the fields and nothing else. -/
def HoldsFields (fields : List (Word × Nat)) (s : State) : Prop :=
  s.bp.bitcnt = (fields.map Prod.snd).sum ∧ readBits s.bp.pbuf 0 s.bp.bitcnt = fieldsBits fields

/-- The puts' stream holds the fields (R147). -/
theorem holdsFields_append (s : State) (fields : List (Word × Nat)) :
    HoldsFields fields (s.withBp (BitPacker.empty.append (fieldsBits fields))) := by
  have hcount : (BitPacker.empty.append (fieldsBits fields)).bitcnt = (fieldsBits fields).length := Nat.zero_add _
  refine ⟨hcount.trans (fieldsBits_length fields), ?_⟩
  rw [withBp_bp, hcount]
  exact readBits_empty_append _

/-- Gets of the fields' widths from the start of the stream return the fields and end at its end (R148). -/
theorem getFields_of_holdsFields {fields : List (Word × Nat)} (hlegal : ∀ f ∈ fields, 1 ≤ f.2 ∧ f.2 ≤ 32) {s : State}
    (h : HoldsFields fields s) (hstart : s.bp.rdpos = 0) :
    ∃ u, getFields (fields.map Prod.snd) s =
        some (fields.map (fun f => BitVec.ofNat 32 (f.1.toNat % 2 ^ f.2)), u) ∧
      HoldsFields fields u ∧ u.bp.rdpos = u.bp.bitcnt := by
  obtain ⟨hcount, hbits⟩ := h
  obtain ⟨r, hget⟩ := getFields_eq (fields.map Prod.snd) (by simpa only [List.forall_mem_map] using hlegal) (s := s)
    (by omega)
  rw [hstart, Nat.zero_add, fieldValues_of_fieldsBits fields (by rw [← hcount, hbits])] at hget
  exact ⟨_, hget, ⟨hcount, hbits⟩, hcount.symm⟩

/-- Settles O44: both runs of gets read the fields from the start of the stream and end at its end. -/
theorem roundTripLaw : Obligations.RoundTripLaw := by
  intro s fields hlegal hfit
  obtain ⟨v, hrun⟩ := run_putCommands_from_clear fields hlegal hfit
  obtain ⟨u, hget, hu, hend⟩ := getFields_of_holdsFields hlegal (holdsFields_append (s.withData v) fields) rfl
  obtain ⟨u', hget', -, hend'⟩ := getFields_of_holdsFields hlegal (s := u.withBp u.bp.rewind) hu rfl
  exact ⟨_, _, u, _, u', exec_of_no_error rfl, hrun, hget, exec_of_no_error rfl, hget',
    fun w h1 h32 => ⟨exec_bpGet_at_end hend h1 h32, exec_bpGet_at_end hend' h1 h32⟩⟩

/-! ## A loaded stream -/

theorem fieldValues_length (m : Memory) (p : Nat) (ws : List Nat) : (fieldValues m p ws).length = ws.length := by
  induction ws generalizing p with
  | nil => rfl
  | cons w ws ih => rw [fieldValues, List.length_cons, ih, List.length_cons]

/-- The k-th word is read after the widths before it. -/
theorem fieldValues_getElem? {m : Memory} {p : Nat} {ws : List Nat} {k : Nat} {r : Word}
    (h : (fieldValues m p ws)[k]? = some r) :
    r = BitVec.ofNat 32 (bitsValue (readBits m (p + (ws.take k).sum) (ws.getD k 0))) := by
  induction ws generalizing p k with
  | nil => simp [fieldValues] at h
  | cons w ws ih =>
    cases k with
    | zero => exact (Option.some.inj h).symm
    | succ k =>
      rw [fieldValues, List.getElem?_cons_succ] at h
      rw [ih h, List.take_succ_cons, List.sum_cons, List.getD_cons_succ, Nat.add_assoc]

/-- The words read depend on the bits they cover only. -/
theorem fieldValues_congr {m n : Memory} {p : Nat} (ws : List Nat)
    (h : ∀ q, q < p + ws.sum → streamBit m q = streamBit n q) : fieldValues m p ws = fieldValues n p ws := by
  induction ws generalizing p with
  | nil => rfl
  | cons w ws ih =>
    rw [List.sum_cons] at h
    have hbits : readBits m p w = readBits n p w := by
      refine List.map_congr_left (fun i hi => h (p + i) ?_)
      have := List.mem_range.1 hi
      omega
    rw [fieldValues, fieldValues, hbits, ih (fun q hq => h q (by omega))]

/-- Settles O45: BP_SETLEN leaves the bits below n, and the gets read below n. -/
theorem loadedStreamContract : Obligations.LoadedStreamContract := by
  intro s ws hm hfit hlegal hsum
  have hsetlen : exec .bpSetlen s = .next (s.withBp (s.bp.setLength s.data.toNat s.params.capacityBits)) :=
    exec_of_no_error (if_neg (Nat.not_lt.2 hfit))
  obtain ⟨r, hget⟩ := getFields_eq ws hlegal
    (s := s.withBp (s.bp.setLength s.data.toNat s.params.capacityBits)) ((Nat.zero_add _).trans_le hsum)
  have hkept : fieldValues (s.bp.setLength s.data.toNat s.params.capacityBits).pbuf 0 ws =
      fieldValues s.bp.pbuf 0 ws := by
    refine fieldValues_congr ws (fun q hq => ?_)
    rw [streamBit_setLength (capacity := s.params.capacityBits) hm hfit, if_neg (by omega)]
  rw [withBp_bp, setLength_rdpos, hkept] at hget
  refine ⟨_, _, fieldValues s.bp.pbuf 0 ws, hsetlen, rfl, padding_setLength hm _, hget, fieldValues_length _ _ _,
    fun k r hr => ?_⟩
  simpa only [Nat.zero_add] using fieldValues_getElem? hr

end Sys2Proof.Machine
end

section
/-! The expansion of `putbits` (30_encoding.md R94): its chunks are the bits, each chunk's two accesses are one put, and
the run of the puts appends the bits. O55. -/

namespace Sys2Proof.Machine

/-! ## The chunks -/

/-- The chunks are the bits in order, and each has 1 to 32 of them (R94). -/
theorem chunks32_spec (fuel : Nat) (bits : List Bool) (h : bits.length ≤ fuel) :
    (chunks32 fuel bits).flatten = bits ∧ ∀ c ∈ chunks32 fuel bits, 1 ≤ c.length ∧ c.length ≤ 32 := by
  induction fuel generalizing bits with
  | zero =>
    rw [List.length_eq_zero_iff.1 (Nat.le_zero.1 h)]
    exact ⟨rfl, by simp [chunks32]⟩
  | succ fuel ih =>
    cases bits with
    | nil => exact ⟨rfl, by simp [chunks32]⟩
    | cons b bits =>
      rw [List.length_cons] at h
      obtain ⟨hflat, hlen⟩ := ih ((b :: bits).drop 32) (by rw [List.length_drop, List.length_cons]; omega)
      simp only [chunks32, List.flatten_cons, hflat, List.take_append_drop, List.forall_mem_cons, true_and]
      refine ⟨?_, hlen⟩
      rw [List.length_take, List.length_cons]
      omega

/-- A chunk as a field: its number and its width (R94). -/
def chunkField (chunk : List Bool) : Word × Nat := (BitVec.ofNat 32 (bitsValue chunk), chunk.length)

/-- The two accesses of a `put` of a field (R94). -/
def putEvents (f : Word × Nat) : List HostEvent := [.write (regOffset .data) 4 f.1, writeCmd (encode (.bpPut f.2))]

/-- A chunk's number fits its width, so the assembler accepts its `put`. -/
theorem assemblePut_chunk {chunk : List Bool} (h : 1 ≤ chunk.length ∧ chunk.length ≤ 32) :
    assemblePut (bitsValue chunk) chunk.length = some (putEvents (chunkField chunk)) :=
  if_pos ⟨legalWidth_eq_true.2 h, bitsValue_lt chunk⟩

/-- Lines that are all accepted are joined in order. -/
theorem joinLines_map_some (lines : List (List HostEvent)) : joinLines (lines.map some) = some lines.flatten := by
  induction lines with
  | nil => rfl
  | cons evs lines ih => rw [List.map_cons, joinLines, ih, List.flatten_cons, Option.map_some]

/-- The fields `putbits` puts. -/
def putbitsFields (bits : List Bool) : List (Word × Nat) := (chunks32 bits.length bits).map chunkField

/-- The assembler accepts any bits but none, as the puts of their chunks (R94). -/
theorem assemble_putbits {bits : List Bool} (hne : bits ≠ []) :
    assemble (.putbits bits) = some ((putbitsFields bits).flatMap putEvents) := by
  obtain ⟨-, hlen⟩ := chunks32_spec bits.length bits (Nat.le_refl _)
  have hlines : (chunks32 bits.length bits).map (fun chunk => assemblePut (bitsValue chunk) chunk.length) =
      ((putbitsFields bits).map putEvents).map some := by
    rw [putbitsFields, List.map_map, List.map_map]
    exact List.map_congr_left (fun chunk hc => assemblePut_chunk (hlen chunk hc))
  rw [assemble, assemblePutbits, if_neg hne, hlines, joinLines_map_some, List.flatMap_def]

/-- The fields `putbits` puts are legal, and their bits are the bits. -/
theorem putbitsFields_spec (bits : List Bool) :
    (∀ f ∈ putbitsFields bits, 1 ≤ f.2 ∧ f.2 ≤ 32) ∧ fieldsBits (putbitsFields bits) = bits := by
  obtain ⟨hflat, hlen⟩ := chunks32_spec bits.length bits (Nat.le_refl _)
  constructor
  · rw [putbitsFields, List.forall_mem_map]
    exact hlen
  · have hfield : ∀ c ∈ chunks32 bits.length bits, fieldBits (chunkField c).1 (chunkField c).2 = c :=
      fun c hc => fieldBits_ofNat_bitsValue (hlen c hc).2
    conv_rhs => rw [← hflat]
    rw [fieldsBits, putbitsFields, List.flatMap_map, List.flatMap_def, List.map_congr_left hfield, List.map_id']

/-! ## The run -/

/-- One more step of a run. -/
theorem core_run_succ {s t : State} (h : step s = .next t) (k : Nat) :
    Host.Core.run Sys2Proof.core (k + 1) s = Host.Core.run Sys2Proof.core k t := by
  have hcore : Sys2Proof.core.step s = .next t := h
  simp only [Host.Core.run, hcore]

/-- No command looks at the host's list. -/
theorem exec_withHost {i : Instr} {s t : State} (h : exec i s = .next t) (l : List HostEvent) :
    exec i (s.withHost l) = .next (t.withHost l) := by
  have herr : firstError i (s.withHost l) = firstError i s := by cases i <;> rfl
  have heff : effect i (s.withHost l) = (effect i s).withHost l := by
    cases i with
    | tbMerge => rw [effect_tbMerge, effect_tbMerge]; rfl
    | tbRead h => simp only [effect, withHost_tb]; split <;> rfl
    | _ => rfl
  rcases exec_cases h with ⟨e, he, rfl⟩ | ⟨hn, rfl⟩
  · exact exec_of_error (herr.trans he)
  · rw [exec_of_no_error (herr.trans hn), heff]

/-- The two accesses of a put write DATA and run BP_PUT (R26, R27). -/
theorem core_run_putEvents {s t : State} {f : Word × Nat} (hf : 1 ≤ f.2 ∧ f.2 ≤ 32)
    (hexec : exec (.bpPut f.2) (s.withData f.1) = .next t) (k : Nat) (rest : List HostEvent) :
    Host.Core.run Sys2Proof.core (k + 2) (s.withHost (putEvents f ++ rest)) =
      Host.Core.run Sys2Proof.core k (t.withHost rest) := by
  have hwf : (Instr.bpPut f.2).wellFormed = true := decide_eq_true (by omega)
  have hdata : step (s.withHost (putEvents f ++ rest)) =
      .next ((s.withData f.1).withHost (writeCmd (encode (.bpPut f.2)) :: rest)) :=
    step_write_register (offset := regOffset .data) rfl (by decide) (by decide)
  have hput : step ((s.withData f.1).withHost (writeCmd (encode (.bpPut f.2)) :: rest)) = .next (t.withHost rest) := by
    rw [step_writeCmd rfl, runCommand_ok (decodeOfEncodeIsIdentity _ hwf)]
    exact exec_withHost hexec rest
  rw [core_run_succ hdata, core_run_succ hput]

/-- The accesses of a run of puts do what the run of commands does, and use up the host's list. -/
theorem core_run_puts (fields : List (Word × Nat)) (hlegal : ∀ f ∈ fields, 1 ≤ f.2 ∧ f.2 ≤ 32) {s t : State}
    (hrun : runCommands (putCommands fields) s = .next t) :
    Host.Core.run Sys2Proof.core (fields.flatMap putEvents).length (s.withHost (fields.flatMap putEvents)) =
      .next (t.withHost []) := by
  induction fields generalizing s with
  | nil => rw [← Host.Outcome.next.inj hrun]; rfl
  | cons f fields ih =>
    obtain ⟨hf, hlegal⟩ := List.forall_mem_cons.1 hlegal
    obtain ⟨u, hu⟩ := exec_next (.bpPut f.2) (s.withData f.1)
    simp only [putCommands, List.map_cons, runCommands, hu] at hrun
    rw [List.flatMap_cons, List.length_append, Nat.add_comm, show (putEvents f).length = 2 from rfl,
      core_run_putEvents hf hu, ih hlegal hrun]

/-- Settles O55: `putbits` puts fields whose bits are its bits, and the run of those puts appends them. -/
theorem putbitsAppendsItsBits : Obligations.PutbitsAppendsItsBits := by
  intro bits s hne hm hfit
  obtain ⟨hlegal, hbits⟩ := putbitsFields_spec bits
  have hfields : putbitsFields bits ≠ [] := by
    intro hnil
    rw [hnil] at hbits
    exact hne hbits.symm
  obtain ⟨v, hrun⟩ := run_putCommands (putbitsFields bits) hfields hlegal hm
    (by rw [← fieldsBits_length, hbits]; exact hfit)
  rw [hbits] at hrun
  exact ⟨_, _, assemble_putbits hne, core_run_puts _ hlegal hrun, rfl, rfl, rfl, rfl, rfl⟩

end Sys2Proof.Machine
end
